-- ==== Sys2Proof/Word.lean ====
section
/-! DEFINITION. The two value widths of the machine (00_scope.md R4): a byte has bits 7 to 0, a word has
bits 15 to 0, and bit 0 is the least significant. -/

namespace Sys2Proof

/-- An 8-bit value. -/
abbrev Byte := BitVec 8

/-- A 16-bit value: the width of every register (R3, `REG_WIDTH`). -/
abbrev Word := BitVec 16

end Sys2Proof
end

