-- ==== Sys2Proof/Syntax.lean ====
section
/-! DEFINITION. The names of the machine and its instructions: registers, operand forms, the five
instructions of spec/opcode_table.json, the shape of an Opcode Table row (R65), the instruction record
(R23) and the conditions that end a run (R120). -/

namespace Sys2Proof

/-- The fourteen 16-bit registers of the register file, a closed set (R10). -/
inductive Reg where
  | ax | bx | cx | dx | si | di | bp | sp | cs | ds | es | ss | ip | flags
deriving DecidableEq, Repr

/-- The eight 8-bit sub-registers (R11), in the order of their 3-bit codes (R14, column W=0). -/
inductive Reg8 where
  | al | cl | dl | bl | ah | ch | dh | bh
deriving DecidableEq, Repr

/-- The eight 16-bit registers an instruction can name, in the order of their 3-bit codes
(R14, column W=1). No code names a segment register, `IP` or `FLAGS` (R15). -/
inductive Reg16 where
  | ax | cx | dx | bx | sp | bp | si | di
deriving DecidableEq, Repr

/-- The eight base expressions of the effective-address calculator, in index order (R95). -/
inductive BaseExpr where
  | bxSi | bxDi | bpSi | bpDi | si | di | bp | bx
deriving DecidableEq, Repr

/-- A memory operand as it is encoded (R67). The displacement is kept as its encoded bytes, so two encodings
of one address are two terms (R81 (b), (d)). -/
inductive MemOperand where
  /-- MOD=00, R/M=110: a 16-bit absolute offset (R96). -/
  | direct (addr : Word)
  /-- MOD=00, R/M not 110: a base expression alone. `base .bp` has no encoding (R81 (c)) and is ill-formed. -/
  | base (b : BaseExpr)
  /-- MOD=01: a base expression and one displacement byte (R68). -/
  | disp8 (b : BaseExpr) (d : Byte)
  /-- MOD=10: a base expression and a 16-bit displacement (R69). -/
  | disp16 (b : BaseExpr) (d : Word)
deriving DecidableEq, Repr

/-- What the R/M field selects (R71): a register when MOD=11, a memory operand otherwise. -/
inductive RegMem (ρ : Type) where
  | reg (r : ρ)
  | mem (m : MemOperand)
deriving DecidableEq, Repr

/-- An 8-bit R/M operand (W=0). -/
abbrev Rm8 := RegMem Reg8

/-- A 16-bit R/M operand (W=1). -/
abbrev Rm16 := RegMem Reg16

/-- The instruction set, one constructor per row of spec/opcode_table.json (R75). -/
inductive Instr where
  /-- `MOV r/m8, r8`, first byte 0x88 (R111). -/
  | movRm8R8 (dst : Rm8) (src : Reg8)
  /-- `MOV r/m16, r16`, first byte 0x89 (R112). -/
  | movRm16R16 (dst : Rm16) (src : Reg16)
  /-- `MOV r8, r/m8`, first byte 0x8A (R113). -/
  | movR8Rm8 (dst : Reg8) (src : Rm8)
  /-- `MOV r16, r/m16`, first byte 0x8B (R114). -/
  | movR16Rm16 (dst : Reg16) (src : Rm16)
  /-- `HLT`, the byte 0xF4 (R118). -/
  | hlt
deriving DecidableEq, Repr

/-- The mnemonic of an Opcode Table row: it selects the execution rule (R65). -/
inductive Mnemonic where
  | mov | hlt
deriving DecidableEq, Repr

/-- The named bits of `FLAGS` (R18). -/
inductive Flag where
  | cf | pf | af | zf | sf | tf | if | df | of
deriving DecidableEq, Repr

/-- An Opcode Table entry, field by field (R65). -/
structure Descriptor where
  /-- The row is selected by a first byte `b0` when `b0 & mask = pattern` (the spec's `match`). -/
  pattern : Byte
  mask : Byte
  mnemonic : Mnemonic
  hasModrm : Bool
  immBytes : Nat
  immLenDependsOnW : Bool
  flagsWritten : List Flag
deriving DecidableEq, Repr

/-- The instruction record (R23): the decoder's output seen as fields. It lives inside one step only, so it
is no part of the machine's state. -/
structure Record where
  mnemonic : Mnemonic
  d : Bool
  w : Bool
  /-- The MOD, REG and R/M fields, absent for HLT. -/
  mode : Option (BitVec 2 × BitVec 3 × BitVec 3)
  dispSize : Nat
  /-- Already sign-extended if it was one byte; 0 if there is none. -/
  disp : Word
  immSize : Nat
  length : Nat
deriving DecidableEq, Repr

/-- The conditions a step can raise (R120, R127). Each has its own value of `STATUS`. -/
inductive Condition where
  /-- The first byte selects no row of the Opcode Table (R122). -/
  | unsupportedOpcode
  /-- An access beyond the memory array, or an `IP` that would pass 0xFFFF (R123). -/
  | outOfBounds
  /-- An instruction byte outside the loaded region (R124). -/
  | ranOffEnd
  /-- Defensive in the spec too: no complete opcode table raises it (R125). -/
  | malformedOperand
deriving DecidableEq, Repr

end Sys2Proof
end

