-- ==== Sys2Proof/WellFormed.lean ====
section
/-! DEFINITION. Which instruction terms have an encoding. The types of Syntax.lean already rule out every
register no code names, so one check is left: MOD=00 with R/M=110 is the direct address, hence `[BP]`
without a displacement has no encoding (R67, R81 (c)). -/

namespace Sys2Proof

/-- A memory operand that some mode byte and displacement encode. -/
def MemOperand.wellFormed : MemOperand → Bool
  | .direct _ => true
  | .base b => b != .bp
  | .disp8 _ _ => true
  | .disp16 _ _ => true

/-- An R/M operand that some mode byte and displacement encode. -/
def RegMem.wellFormed {ρ : Type} : RegMem ρ → Bool
  | .reg _ => true
  | .mem m => m.wellFormed

/-- An instruction that some bytes encode. -/
def Instr.wellFormed : Instr → Bool
  | .movRm8R8 dst _ => dst.wellFormed
  | .movRm16R16 dst _ => dst.wellFormed
  | .movR8Rm8 _ src => src.wellFormed
  | .movR16Rm16 _ src => src.wellFormed
  | .hlt => true

end Sys2Proof
end

