-- ==== Sys2Proof/Decode.lean ====
section
/-! DEFINITION. The opcode table, the decoder of R79 and the encoder written from the same tables
(30_encoding.md). The decoder takes the function that fetches the instruction byte at index `k`, so that
the machine's own fetch (R78) and a plain list of bytes go through one definition. -/

namespace Sys2Proof

/-! ## Bit fields, sign extension, byte order -/

/-- `hi : lo`, the word whose byte at the lower address is `lo` (R47, R49, R69). -/
def wordOf (lo hi : Byte) : Word := hi ++ lo

/-- Bits 7 to 0 of a word. -/
def loByte (v : Word) : Byte := v.extractLsb' 0 8

/-- Bits 15 to 8 of a word. -/
def hiByte (v : Word) : Byte := v.extractLsb' 8 8

/-- `sext_16` (R4, R68). -/
def sext16 (b : Byte) : Word := b.signExtend 16

/-- The D bit of a first byte (R61). -/
def dBit (b0 : Byte) : Bool := b0.getLsbD 1

/-- The W bit of a first byte (R61). -/
def wBit (b0 : Byte) : Bool := b0.getLsbD 0

/-- The MOD field of a mode byte, bits 7 to 6 (R61). -/
def modField (b1 : Byte) : BitVec 2 := b1.extractLsb' 6 2

/-- The REG field of a mode byte, bits 5 to 3 (R61). -/
def regField (b1 : Byte) : BitVec 3 := b1.extractLsb' 3 3

/-- The R/M field of a mode byte, bits 2 to 0 (R61). -/
def rmField (b1 : Byte) : BitVec 3 := b1.extractLsb' 0 3

/-! ## The code tables -/

/-- `RegOperand(code, 0)` (R93; R14, column W=0). -/
def Reg8.ofCode (c : BitVec 3) : Reg8 :=
  match c.toNat with
  | 0 => .al
  | 1 => .cl
  | 2 => .dl
  | 3 => .bl
  | 4 => .ah
  | 5 => .ch
  | 6 => .dh
  | _ => .bh

/-- The 3-bit code of an 8-bit register (R14, column W=0). -/
def Reg8.code : Reg8 → BitVec 3
  | .al => 0b000#3
  | .cl => 0b001#3
  | .dl => 0b010#3
  | .bl => 0b011#3
  | .ah => 0b100#3
  | .ch => 0b101#3
  | .dh => 0b110#3
  | .bh => 0b111#3

/-- `RegOperand(code, 1)` (R93; R14, column W=1). -/
def Reg16.ofCode (c : BitVec 3) : Reg16 :=
  match c.toNat with
  | 0 => .ax
  | 1 => .cx
  | 2 => .dx
  | 3 => .bx
  | 4 => .sp
  | 5 => .bp
  | 6 => .si
  | _ => .di

/-- The 3-bit code of a 16-bit register (R14, column W=1). -/
def Reg16.code : Reg16 → BitVec 3
  | .ax => 0b000#3
  | .cx => 0b001#3
  | .dx => 0b010#3
  | .bx => 0b011#3
  | .sp => 0b100#3
  | .bp => 0b101#3
  | .si => 0b110#3
  | .di => 0b111#3

/-- The base expression an R/M code selects (R95). -/
def BaseExpr.ofCode (c : BitVec 3) : BaseExpr :=
  match c.toNat with
  | 0 => .bxSi
  | 1 => .bxDi
  | 2 => .bpSi
  | 3 => .bpDi
  | 4 => .si
  | 5 => .di
  | 6 => .bp
  | _ => .bx

/-- The R/M code of a base expression (R95). -/
def BaseExpr.code : BaseExpr → BitVec 3
  | .bxSi => 0b000#3
  | .bxDi => 0b001#3
  | .bpSi => 0b010#3
  | .bpDi => 0b011#3
  | .si => 0b100#3
  | .di => 0b101#3
  | .bp => 0b110#3
  | .bx => 0b111#3

/-! ## The opcode table -/

/-- The first row: opcode-class 100010, D and W free (R65). -/
def movRow : Descriptor :=
  { pattern := 0x88, mask := 0xFC, mnemonic := .mov, hasModrm := true,
    immBytes := 0, immLenDependsOnW := false, flagsWritten := [] }

/-- The second row: the one byte 0xF4 (R62, R65; the spec's decision D3). -/
def hltRow : Descriptor :=
  { pattern := 0xF4, mask := 0xFF, mnemonic := .hlt, hasModrm := false,
    immBytes := 0, immLenDependsOnW := false, flagsWritten := [] }

/-- `OPTAB` (R3, R65). -/
def opcodeTable : List Descriptor := [movRow, hltRow]

/-- The row a first byte selects, if any (R66). -/
def lookupRow (b0 : Byte) : Option Descriptor :=
  opcodeTable.find? (fun row => b0 &&& row.mask == row.pattern)

/-- The number of displacement bytes, a function of MOD and R/M alone (R67). -/
def dispSizeOf (mod : BitVec 2) (rm : BitVec 3) : Nat :=
  if mod = 0b00#2 then (if rm = 0b110#3 then 2 else 0)
  else if mod = 0b01#2 then 1
  else if mod = 0b10#2 then 2
  else 0

/-- The number of immediate bytes (R70). -/
def Descriptor.immSize (desc : Descriptor) (w : Bool) : Nat :=
  desc.immBytes + (if desc.immLenDependsOnW && w then 1 else 0)

/-! ## An instruction seen as its encoded fields -/

/-- The Opcode Table row of an instruction (R65). -/
def Instr.descriptor : Instr → Descriptor
  | .movRm8R8 _ _ => movRow
  | .movRm16R16 _ _ => movRow
  | .movR8Rm8 _ _ => movRow
  | .movR16Rm16 _ _ => movRow
  | .hlt => hltRow

/-- The D bit of an instruction (R61, R62, R110). -/
def Instr.d : Instr → Bool
  | .movRm8R8 _ _ => false
  | .movRm16R16 _ _ => false
  | .movR8Rm8 _ _ => true
  | .movR16Rm16 _ _ => true
  | .hlt => false

/-- The W bit of an instruction (R61, R62, R110). -/
def Instr.w : Instr → Bool
  | .movRm8R8 _ _ => false
  | .movRm16R16 _ _ => true
  | .movR8Rm8 _ _ => false
  | .movR16Rm16 _ _ => true
  | .hlt => false

/-- The MOD field of a memory operand (R67). -/
def MemOperand.mod : MemOperand → BitVec 2
  | .direct _ => 0b00#2
  | .base _ => 0b00#2
  | .disp8 _ _ => 0b01#2
  | .disp16 _ _ => 0b10#2

/-- The R/M field of a memory operand (R67, R95). -/
def MemOperand.rm : MemOperand → BitVec 3
  | .direct _ => 0b110#3
  | .base b => b.code
  | .disp8 b _ => b.code
  | .disp16 b _ => b.code

/-- The displacement bytes of a memory operand, low byte first (R67, R69). -/
def MemOperand.dispBytes : MemOperand → List Byte
  | .direct a => [loByte a, hiByte a]
  | .base _ => []
  | .disp8 _ d => [d]
  | .disp16 _ d => [loByte d, hiByte d]

/-- The displacement as the 16-bit value of the instruction record (R23, R68, R69). -/
def MemOperand.disp : MemOperand → Word
  | .direct a => a
  | .base _ => 0x0000
  | .disp8 _ d => sext16 d
  | .disp16 _ d => d

/-- The MOD field of an R/M operand (R67). -/
def RegMem.mod {ρ : Type} : RegMem ρ → BitVec 2
  | .reg _ => 0b11#2
  | .mem m => m.mod

/-- The R/M field of an R/M operand, given the code of a register (R67, R94, R95). -/
def RegMem.rm {ρ : Type} (code : ρ → BitVec 3) : RegMem ρ → BitVec 3
  | .reg r => code r
  | .mem m => m.rm

/-- The displacement bytes of an R/M operand (R67). -/
def RegMem.dispBytes {ρ : Type} : RegMem ρ → List Byte
  | .reg _ => []
  | .mem m => m.dispBytes

/-- The displacement of an R/M operand, 0 for a register (R23). -/
def RegMem.disp {ρ : Type} : RegMem ρ → Word
  | .reg _ => 0x0000
  | .mem m => m.disp

/-- The R/M operand with its register renamed: the decoder reads a code first and names it by W later. -/
def RegMem.map {ρ σ : Type} (f : ρ → σ) : RegMem ρ → RegMem σ
  | .reg r => .reg (f r)
  | .mem m => .mem m

/-- The MOD, REG and R/M fields; HLT has none (R23, R61, R62). -/
def Instr.mode : Instr → Option (BitVec 2 × BitVec 3 × BitVec 3)
  | .movRm8R8 dst src => some (dst.mod, src.code, dst.rm Reg8.code)
  | .movRm16R16 dst src => some (dst.mod, src.code, dst.rm Reg16.code)
  | .movR8Rm8 dst src => some (src.mod, dst.code, src.rm Reg8.code)
  | .movR16Rm16 dst src => some (src.mod, dst.code, src.rm Reg16.code)
  | .hlt => none

/-- The displacement bytes of an instruction (R67). -/
def Instr.dispBytes : Instr → List Byte
  | .movRm8R8 dst _ => dst.dispBytes
  | .movRm16R16 dst _ => dst.dispBytes
  | .movR8Rm8 _ src => src.dispBytes
  | .movR16Rm16 _ src => src.dispBytes
  | .hlt => []

/-- The displacement of an instruction (R23). -/
def Instr.disp : Instr → Word
  | .movRm8R8 dst _ => dst.disp
  | .movRm16R16 dst _ => dst.disp
  | .movR8Rm8 _ src => src.disp
  | .movR16Rm16 _ src => src.disp
  | .hlt => 0x0000

/-- `disp_size` of an instruction, 0 when there is no mode byte (R67, R72). -/
def Instr.dispSize (i : Instr) : Nat :=
  match i.mode with
  | some (mod, _, rm) => dispSizeOf mod rm
  | none => 0

/-- The encoded length `L` (R72). -/
def Instr.length (i : Instr) : Nat :=
  (if i.descriptor.hasModrm then 2 else 1) + i.dispSize + i.descriptor.immSize i.w

/-- The instruction record of R23. -/
def Instr.record (i : Instr) : Record :=
  { mnemonic := i.descriptor.mnemonic, d := i.d, w := i.w, mode := i.mode, dispSize := i.dispSize,
    disp := i.disp, immSize := i.descriptor.immSize i.w, length := i.length }

/-! ## The decoder -/

/-- Two bytes fetched in ascending order, low byte first (R69, R79). -/
def fetchWordAt (fetch : Nat → Except Condition Byte) (k : Nat) : Except Condition Word :=
  match fetch k with
  | .error c => .error c
  | .ok lo =>
    match fetch (k + 1) with
    | .error c => .error c
    | .ok hi => .ok (wordOf lo hi)

/-- The `n` bytes from index `k` on, in ascending order: the immediate bytes of R70 and R79. -/
def fetchBytesAt (fetch : Nat → Except Condition Byte) (k : Nat) : Nat → Except Condition (List Byte)
  | 0 => .ok []
  | n + 1 =>
    match fetch k with
    | .error c => .error c
    | .ok b =>
      match fetchBytesAt fetch (k + 1) n with
      | .error c => .error c
      | .ok bs => .ok (b :: bs)

/-- The R/M operand, with the displacement bytes it asks for (R67 to R69, R79). A register is still its
code here. MOD=00 with R/M=110 is the explicit exception of R67 and R96. -/
def decodeRm (fetch : Nat → Except Condition Byte) (mod : BitVec 2) (rm : BitVec 3) :
    Except Condition (RegMem (BitVec 3)) :=
  if mod = 0b11#2 then .ok (.reg rm)
  else if mod = 0b00#2 then
    if rm = 0b110#3 then
      match fetchWordAt fetch 2 with
      | .error c => .error c
      | .ok a => .ok (.mem (.direct a))
    else .ok (.mem (.base (BaseExpr.ofCode rm)))
  else if mod = 0b01#2 then
    match fetch 2 with
    | .error c => .error c
    | .ok d => .ok (.mem (.disp8 (BaseExpr.ofCode rm) d))
  else
    match fetchWordAt fetch 2 with
    | .error c => .error c
    | .ok d => .ok (.mem (.disp16 (BaseExpr.ofCode rm) d))

/-- The MOV that D, W, the REG code and the R/M operand stand for (R71, R110). -/
def movOf (d w : Bool) (reg : BitVec 3) (rm : RegMem (BitVec 3)) : Instr :=
  match d, w with
  | false, false => .movRm8R8 (rm.map Reg8.ofCode) (Reg8.ofCode reg)
  | false, true => .movRm16R16 (rm.map Reg16.ofCode) (Reg16.ofCode reg)
  | true, false => .movR8Rm8 (Reg8.ofCode reg) (rm.map Reg8.ofCode)
  | true, true => .movR16Rm16 (Reg16.ofCode reg) (rm.map Reg16.ofCode)

/-- The instruction of a row without a mode byte. A MOV row without one would leave its operands unnamed:
the defensive condition of R125, which this table cannot raise (R77). -/
def decodeOp (desc : Descriptor) : Except Condition Instr :=
  match desc.mnemonic with
  | .hlt => .ok .hlt
  | .mov => .error .malformedOperand

/-- Phase 2 of a row with a mode byte (R79): the mode byte, the displacement, the immediate bytes. A HLT row
with a mode byte would have an operand nothing resolves: the same defensive condition. -/
def decodeMode (fetch : Nat → Except Condition Byte) (desc : Descriptor) (b0 : Byte) :
    Except Condition Instr :=
  match fetch 1 with
  | .error c => .error c
  | .ok b1 =>
    match decodeRm fetch (modField b1) (rmField b1) with
    | .error c => .error c
    | .ok rm =>
      match fetchBytesAt fetch (2 + dispSizeOf (modField b1) (rmField b1)) (desc.immSize (wBit b0)) with
      | .error c => .error c
      | .ok _ =>
        match desc.mnemonic with
        | .mov => .ok (movOf (dBit b0) (wBit b0) (regField b1) rm)
        | .hlt => .error .malformedOperand

/-- `Decode()` (R79): the first byte, the table lookup, then what the row asks for, byte by byte in ascending
order; the first check that fails ends it. -/
def decodeWith (fetch : Nat → Except Condition Byte) : Except Condition Instr :=
  match fetch 0 with
  | .error c => .error c
  | .ok b0 =>
    match lookupRow b0 with
    | none => .error .unsupportedOpcode
    | some desc => if desc.hasModrm then decodeMode fetch desc b0 else decodeOp desc

/-- Byte `k` of a byte sequence; past its end there is nothing to fetch (R124). -/
def byteAt (bs : List Byte) (k : Nat) : Except Condition Byte :=
  match bs[k]? with
  | some b => .ok b
  | none => .error .ranOffEnd

/-- The decoder on a byte sequence in instruction-stream order (R4), total on any bytes. -/
def decode (bs : List Byte) : Except Condition Instr := decodeWith (byteAt bs)

/-! ## The encoder -/

/-- The first byte: opcode-class, D, W (R61, R62). -/
def Instr.opcodeByte (i : Instr) : Byte :=
  match i with
  | .hlt => 0xF4
  | .movRm8R8 _ _ => 0b100010#6 ++ BitVec.ofBool i.d ++ BitVec.ofBool i.w
  | .movRm16R16 _ _ => 0b100010#6 ++ BitVec.ofBool i.d ++ BitVec.ofBool i.w
  | .movR8Rm8 _ _ => 0b100010#6 ++ BitVec.ofBool i.d ++ BitVec.ofBool i.w
  | .movR16Rm16 _ _ => 0b100010#6 ++ BitVec.ofBool i.d ++ BitVec.ofBool i.w

/-- The mode byte `MOD : REG : R/M`, if the format has one (R61, R62). -/
def Instr.modeBytes (i : Instr) : List Byte :=
  match i.mode with
  | some (mod, reg, rm) => [mod ++ reg ++ rm]
  | none => []

/-- The bytes of an instruction, first byte first (R60, R61). -/
def encode (i : Instr) : List Byte := i.opcodeByte :: (i.modeBytes ++ i.dispBytes)

/-! ## The opcode table's words -/

/-- The length of the longest instruction (R60). -/
def maxInstrLength : Nat := 4

/-- The first `n` bytes of a number whose bit 0 is the least significant bit of the first byte. -/
def bytesOfNat (w : Nat) : Nat → List Byte
  | 0 => []
  | n + 1 => BitVec.ofNat 8 w :: bytesOfNat (w / 256) n

/-- The bytes of a table word of `nbits` bits: every bit above `nbits` is 0, up to the longest instruction. -/
def tableBytes (nbits w : Nat) : List Byte := bytesOfNat (w % 2 ^ nbits) maxInstrLength

/-- The instruction the decoder reads from a table word, none where it refuses. -/
def decodeTableWord (nbits w : Nat) : Option Instr :=
  match decode (tableBytes nbits w) with
  | .ok i => some i
  | .error _ => none

end Sys2Proof
end

