-- ==== Sys2Proof/Machine/Flags.lean ====
section
/-! DEFINITION. The `FLAGS` layout (R18) and the flag-update logic (R106). The spec defines no formula for any
flag (R19, R106), so there is none here: no instruction of this hardware computes one. -/

namespace Sys2Proof.Machine

/-- The position of a flag in `FLAGS` (R18, 90_conflicts.md C1). -/
def flagBit : Flag → Nat
  | .cf => 0
  | .pf => 2
  | .af => 4
  | .zf => 6
  | .sf => 7
  | .tf => 8
  | .if => 9
  | .df => 10
  | .of => 11

/-- The mask `M` of R106: a 1 at the position of every flag in the set. -/
def flagMask : List Flag → Word
  | [] => 0x0000
  | f :: fs => (1#16 <<< flagBit f) ||| flagMask fs

/-- `flag-update` (R106): the flags of the descriptor's set come from `new`, every other bit from `FLAGS`. -/
def flagUpdate (written : List Flag) (new flags : Word) : Word :=
  (flags &&& ~~~(flagMask written)) ||| (new &&& flagMask written)

/-- One flag read out of `FLAGS` (R141). -/
def flagValue (f : Flag) (flags : Word) : Bool := flags.getLsbD (flagBit f)

end Sys2Proof.Machine
end

