-- ==== Sys2Proof/Config.lean ====
section
/-! DEFINITION. What is fixed for this hardware (00_scope.md R3). The two parameters R3 leaves OPEN are no
constants here: `IMAGE` is the argument of LOAD, and `MEM0` is the argument of `State.resetWith`. -/

namespace Sys2Proof.Config

/-- `MEM_SIZE`, 2^20 bytes (R3, R40). -/
def memSize : Nat := 0x100000

/-- `IMG_ORIGIN` (R3, R58). -/
def imgOrigin : Nat := 0

/-- The greatest value of a 16-bit offset, the limit of `IP` (R17, R78, R91). -/
def maxOffset : Nat := 0xFFFF

/-- What an address that the memory list does not hold reads as. It is how a memory array is WRITTEN
DOWN, so every array of 2^20 bytes has exactly one list; `State.reset` takes `MEM0` to be this byte
everywhere (DESIGN CHOICE, unsafe, assumption 1), and `State.resetWith` takes any other `MEM0`. -/
def unlistedByte : Byte := 0x00

end Sys2Proof.Config
end

