-- ==== Sys2Proof/Machine/State.lean ====
section
/-! DEFINITION. The state of the machine (10_state.md, 20_memory.md R40), the reasons it can stop, and the
state after reset. R24: there is no other state. -/

namespace Sys2Proof.Machine

/-- The register file: fourteen 16-bit registers (R10). -/
structure RegFile where
  ax : Word
  bx : Word
  cx : Word
  dx : Word
  si : Word
  di : Word
  bp : Word
  sp : Word
  cs : Word
  ds : Word
  es : Word
  ss : Word
  ip : Word
  flags : Word
deriving DecidableEq, Repr

/-- The memory array of 1,048,576 bytes (R40): the bytes that differ from `Config.unlistedByte`, by strictly
rising address (`Memory.wf`, Machine/Ops.lean). Each array has exactly one such list. -/
abbrev Memory := List Host.Cell

/-- The execution unit's state latch (R21, R120). -/
inductive Status where
  | ready | halted | unsupportedOpcode | outOfBounds | ranOffEnd | malformedOperand
deriving DecidableEq, Repr

/-- Everything the spec gives the machine: R10 (registers), R40 (memory), R21 (`STATUS`), R22 (`IMG_END`). -/
structure State where
  regs : RegFile
  mem : Memory
  status : Status
  /-- `IMG_END`: one past the last byte LOAD wrote, a 21-bit value (R22). -/
  imgEnd : BitVec 21
deriving DecidableEq, Repr

/-- Why a host command fails. No step ends in a fault: each condition a step raises has the effect the spec
gives it, `STATUS <- code(C)` and nothing else (R127), and that is a next state (assumption 3). -/
inductive Fault where
  /-- LOAD of an image that does not fit in memory (R58, R129). Raised by `State.load` alone; nothing changes.
  Safe: the spec gives exactly this result. -/
  | loadError
deriving DecidableEq, Repr

/-- Why the model gives no meaning to something. -/
inductive Refusal where
  /-- An instruction without a meaning, by its mnemonic. No arm of `exec` raises it: all five instructions
  have their meaning. Safe. -/
  | notModelled (mnemonic : String)
  /-- A second successful LOAD, or a LOAD after a STEP or RUN: outside the spec, which says to refuse it (R152,
  U2, D18). Raised by `Session.command` alone. Safe: nothing follows from a run that is refused. -/
  | loadOutsideProtocol
deriving DecidableEq, Repr

/-- The register file at engine start: every register 0x0000 (R25). -/
def RegFile.zero : RegFile :=
  { ax := 0x0000, bx := 0x0000, cx := 0x0000, dx := 0x0000, si := 0x0000, di := 0x0000, bp := 0x0000,
    sp := 0x0000, cs := 0x0000, ds := 0x0000, es := 0x0000, ss := 0x0000, ip := 0x0000, flags := 0x0000 }

/-- RESET (R25, R150), with the array `MEM0` that R41 leaves open as its argument. -/
def State.resetWith (mem0 : Memory) : State :=
  { regs := RegFile.zero, mem := mem0, status := .ready, imgEnd := 0 }

/-- The state right after reset. It lists no memory: here `MEM0` reads `Config.unlistedByte` everywhere
(DESIGN CHOICE, unsafe, assumption 1). A claim about memory after reset is stated of `State.resetWith`. -/
def State.reset : State := State.resetWith []

end Sys2Proof.Machine
end

