-- ==== Sys2Proof/Machine/Ops.lean ====
section
/-! DEFINITION. The named operations over registers and memory, LOAD, raising a condition, and the checks and
the commit that every step shares (10_state.md, 20_memory.md, R90, R91, R104, R127). -/

namespace Sys2Proof.Machine

/-! ## The register file -/

/-- `R16[n]` (R13). -/
def RegFile.get (rf : RegFile) : Reg → Word
  | .ax => rf.ax
  | .bx => rf.bx
  | .cx => rf.cx
  | .dx => rf.dx
  | .si => rf.si
  | .di => rf.di
  | .bp => rf.bp
  | .sp => rf.sp
  | .cs => rf.cs
  | .ds => rf.ds
  | .es => rf.es
  | .ss => rf.ss
  | .ip => rf.ip
  | .flags => rf.flags

/-- `R16[n] <- v` (R13). -/
def RegFile.set (rf : RegFile) (n : Reg) (v : Word) : RegFile :=
  match n with
  | .ax => { rf with ax := v }
  | .bx => { rf with bx := v }
  | .cx => { rf with cx := v }
  | .dx => { rf with dx := v }
  | .si => { rf with si := v }
  | .di => { rf with di := v }
  | .bp => { rf with bp := v }
  | .sp => { rf with sp := v }
  | .cs => { rf with cs := v }
  | .ds => { rf with ds := v }
  | .es => { rf with es := v }
  | .ss => { rf with ss := v }
  | .ip => { rf with ip := v }
  | .flags => { rf with flags := v }

/-- The 16-bit register that holds a sub-register (R11). -/
def parentOf : Reg8 → Reg
  | .al | .ah => .ax
  | .bl | .bh => .bx
  | .cl | .ch => .cx
  | .dl | .dh => .dx

/-- Whether a sub-register is the high byte, bits 15 to 8, of its parent (R11). -/
def isHighByte : Reg8 → Bool
  | .ah | .bh | .ch | .dh => true
  | .al | .bl | .cl | .dl => false

/-- `R8[n]` (R12). -/
def RegFile.get8 (rf : RegFile) (n : Reg8) : Byte :=
  if isHighByte n then hiByte (rf.get (parentOf n)) else loByte (rf.get (parentOf n))

/-- `R8[n] <- v`: the sibling byte is kept (R12). -/
def RegFile.set8 (rf : RegFile) (n : Reg8) (v : Byte) : RegFile :=
  rf.set (parentOf n)
    (if isHighByte n then wordOf (loByte (rf.get (parentOf n))) v
     else wordOf v (hiByte (rf.get (parentOf n))))

/-- The register of the file that a 16-bit operand names (R14). -/
def regOf : Reg16 → Reg
  | .ax => .ax
  | .cx => .cx
  | .dx => .dx
  | .bx => .bx
  | .sp => .sp
  | .bp => .bp
  | .si => .si
  | .di => .di

/-- `R16[n]` of the state. -/
def State.reg (s : State) (n : Reg) : Word := s.regs.get n

/-- `R8[n]` of the state. -/
def State.reg8 (s : State) (n : Reg8) : Byte := s.regs.get8 n

/-- `R16[n] <- v`, nothing else changed. -/
def State.setReg (s : State) (n : Reg) (v : Word) : State := { s with regs := s.regs.set n v }

/-- `R8[n] <- v`, nothing else changed. -/
def State.setReg8 (s : State) (n : Reg8) (v : Byte) : State := { s with regs := s.regs.set8 n v }

/-- `STATUS <- c`, nothing else changed. -/
def State.setStatus (s : State) (c : Status) : State := { s with status := c }

/-! ## The memory array -/

/-- The byte `MEM[a]`. -/
def Memory.read (m : Memory) (a : Nat) : Byte :=
  match m with
  | [] => Config.unlistedByte
  | (k, b) :: rest => if k = a then b else Memory.read rest a

/-- `MEM[a] <- v`, in canonical form: writing the byte an unlisted address reads as removes the entry. -/
def Memory.write (m : Memory) (a : Nat) (v : Byte) : Memory :=
  match m with
  | [] => if v = Config.unlistedByte then [] else [(a, v)]
  | (k, b) :: rest =>
    if a < k then (if v = Config.unlistedByte then (k, b) :: rest else (a, v) :: (k, b) :: rest)
    else if a = k then (if v = Config.unlistedByte then rest else (a, v) :: rest)
    else (k, b) :: Memory.write rest a v

/-- The canonical form from an address on: addresses rise strictly and stay inside the array (R44), and no
entry holds what an unlisted address reads as. -/
def Memory.wfFrom (least : Nat) : Memory → Bool
  | [] => true
  | (k, b) :: rest =>
    decide (least ≤ k) && decide (k < Config.memSize) && decide (b ≠ Config.unlistedByte)
      && Memory.wfFrom (k + 1) rest

/-- The canonical form of the memory list. -/
def Memory.wf (m : Memory) : Bool := Memory.wfFrom 0 m

/-- `MEM[a], MEM[a+1], … <- bytes` (R58). -/
def Memory.writeAll (m : Memory) (a : Nat) : List Byte → Memory
  | [] => m
  | b :: bs => Memory.writeAll (m.write a b) (a + 1) bs

/-- `PA(seg, off)`: the exact sum, never reduced modulo 2^20 (R43). -/
def physAddr (seg off : Word) : Nat := seg.toNat * 16 + off.toNat

/-- `MemRead(pa, 1)` (R45). -/
def memRead8 (m : Memory) (pa : Nat) : Except Condition Byte :=
  if pa ≥ Config.memSize then .error .outOfBounds else .ok (m.read pa)

/-- `MemRead(pa, 2)`: little-endian, the second byte at physical address `pa + 1` (R47). -/
def memRead16 (m : Memory) (pa : Nat) : Except Condition Word :=
  if pa + 1 ≥ Config.memSize then .error .outOfBounds
  else .ok (wordOf (m.read pa) (m.read (pa + 1)))

/-- The bounds check of a byte write (R46, R100). -/
def checkWrite8 (pa : Nat) : Except Condition Unit :=
  if pa ≥ Config.memSize then .error .outOfBounds else .ok ()

/-- The bounds check of a word write: made before either byte is written (R48, R100). -/
def checkWrite16 (pa : Nat) : Except Condition Unit :=
  if pa + 1 ≥ Config.memSize then .error .outOfBounds else .ok ()

/-- The store of a word whose check has passed: low byte at the lower address (R48). -/
def Memory.write16 (m : Memory) (pa : Nat) (v : Word) : Memory :=
  (m.write pa (loByte v)).write (pa + 1) (hiByte v)

/-- `MemWrite(pa, 1, v)` (R46): the check, then the store. -/
def memWrite8 (m : Memory) (pa : Nat) (v : Byte) : Except Condition Memory :=
  match checkWrite8 pa with
  | .error c => .error c
  | .ok _ => .ok (m.write pa v)

/-- `MemWrite(pa, 2, v)` (R48): both checks, then both stores. -/
def memWrite16 (m : Memory) (pa : Nat) (v : Word) : Except Condition Memory :=
  match checkWrite16 pa with
  | .error c => .error c
  | .ok _ => .ok (m.write16 pa v)

/-- The memory of the state replaced, nothing else changed. -/
def State.setMem (s : State) (m : Memory) : State := { s with mem := m }

/-- `LOAD(bytes)` (R58): `LoadError` and nothing changed if the image does not fit, else the bytes from
`IMG_ORIGIN` on and `IMG_END`. -/
def State.load (bytes : List Byte) (s : State) : Host.Outcome State Fault Refusal :=
  if Config.imgOrigin + bytes.length > Config.memSize then .fault .loadError
  else .next { s with mem := s.mem.writeAll Config.imgOrigin bytes,
                      imgEnd := BitVec.ofNat 21 (Config.imgOrigin + bytes.length) }

/-! ## Conditions: the machine's one exception mechanism, and its return -/

/-- The value of `STATUS` a condition leaves (R120). -/
def statusOf : Condition → Status
  | .unsupportedOpcode => .unsupportedOpcode
  | .outOfBounds => .outOfBounds
  | .ranOffEnd => .ranOffEnd
  | .malformedOperand => .malformedOperand

/-- The code of a `STATUS` value (R120; the spec's decision D8). No program can observe it. -/
def statusCode : Status → Nat
  | .ready => 0
  | .halted => 1
  | .unsupportedOpcode => 2
  | .outOfBounds => 3
  | .ranOffEnd => 4
  | .malformedOperand => 5

/-- `raise c` (R127): `STATUS <- code(c)` and nothing else. Nothing is saved and control goes nowhere: there is
no vector, no handler and no mode. There is no return from it either (R132): only RESET leaves a terminal state,
and that is `State.resetWith`. -/
def raise (c : Condition) (s : State) : State := s.setStatus (statusOf c)

/-- How a step ends: with the committed state, or with the condition raised on the state it began in (R104). -/
def settle (s : State) (r : Except Condition State) : Host.Outcome State Fault Refusal :=
  match r with
  | .ok t => .next t
  | .error c => .next (raise c s)

/-! ## What every step shares -/

/-- Phase 2 of R90: `IP + L` must not pass 0xFFFF; the sum is exact (R91). -/
def checkIpLimit (i : Instr) (s : State) : Except Condition Unit :=
  if (s.reg .ip).toNat + i.length > Config.maxOffset then .error .outOfBounds else .ok ()

/-- The `STATUS` a completed step leaves (R90, R118). -/
def statusAfter (i : Instr) : Status :=
  match i.descriptor.mnemonic with
  | .mov => .ready
  | .hlt => .halted

/-- The rest of the commit once the destination is written (phase 6 of R90): the flag update, the advance of `IP`
and `STATUS`. `new` is what the instruction computes for its flags; no row of the table writes a flag, so no bit
of it is used (R106, assumption 7). No destination is `IP` or `FLAGS` (R15), so their old values still stand. -/
def commit (i : Instr) (new : Word) (s : State) : State :=
  (((s.setReg .flags (flagUpdate i.descriptor.flagsWritten new (s.reg .flags))).setReg .ip
    (s.reg .ip + BitVec.ofNat 16 i.length)).setStatus (statusAfter i))

end Sys2Proof.Machine
end

