-- ==== Sys2Proof/Machine/Hlt.lean ====
section
/-! DEFINITION. HLT (42_hlt.md). -/

namespace Sys2Proof.Machine

/-- Phases 2 to 6 of R90 for HLT: it has no operand (R118). -/
def haltUnit (s : State) : Except Condition State :=
  match checkIpLimit .hlt s with
  | .error c => .error c
  | .ok _ => .ok (commit .hlt 0x0000 s)

/-- `HLT` (R118). -/
def execHlt (s : State) : Host.Outcome State Fault Refusal := settle s (haltUnit s)

end Sys2Proof.Machine
end

