-- ==== Sys2Proof/Machine/Operands.lean ====
section
/-! DEFINITION. The operand resolver and the effective-address calculator (R93 to R98), and reading and writing
a resolved operand (R99, R100). -/

namespace Sys2Proof.Machine

/-- Where an operand is: a register, or a physical address (R98). There is no third shape. -/
inductive Location (ρ : Type) where
  | reg (r : ρ)
  | mem (pa : Nat)
deriving DecidableEq, Repr

/-- `Base(rm)`, reduced modulo 2^16 (R95). -/
def baseValue (rf : RegFile) : BaseExpr → Word
  | .bxSi => rf.get .bx + rf.get .si
  | .bxDi => rf.get .bx + rf.get .di
  | .bpSi => rf.get .bp + rf.get .si
  | .bpDi => rf.get .bp + rf.get .di
  | .si => rf.get .si
  | .di => rf.get .di
  | .bp => rf.get .bp
  | .bx => rf.get .bx

/-- `EA(mod, rm, disp)`, reduced modulo 2^16; the direct address reads no register (R95, R96). -/
def effAddr (rf : RegFile) : MemOperand → Word
  | .direct a => a
  | .base b => baseValue rf b
  | .disp8 b d => baseValue rf b + sext16 d
  | .disp16 b d => baseValue rf b + d

/-- The segment register that goes with a base expression: `SS` where it holds `BP` (R95, R97). -/
def segOfBase : BaseExpr → Reg
  | .bpSi | .bpDi | .bp => .ss
  | .bxSi | .bxDi | .si | .di | .bx => .ds

/-- `SegOf(mod, rm)` (R97). -/
def segOf : MemOperand → Reg
  | .direct _ => .ds
  | .base b => segOfBase b
  | .disp8 b _ => segOfBase b
  | .disp16 b _ => segOfBase b

/-- The physical address of a memory operand (R98). -/
def operandAddr (rf : RegFile) (m : MemOperand) : Nat := physAddr (rf.get (segOf m)) (effAddr rf m)

/-- The resolver (R94, R98): it reads registers only. -/
def resolve {ρ : Type} (rf : RegFile) : RegMem ρ → Location ρ
  | .reg r => .reg r
  | .mem m => .mem (operandAddr rf m)

/-- `Read(_, 0)` (R99). -/
def readLoc8 (s : State) : Location Reg8 → Except Condition Byte
  | .reg r => .ok (s.reg8 r)
  | .mem pa => memRead8 s.mem pa

/-- `Read(_, 1)` (R99). -/
def readLoc16 (s : State) : Location Reg16 → Except Condition Word
  | .reg r => .ok (s.reg (regOf r))
  | .mem pa => memRead16 s.mem pa

/-- Phase 5 of R90 for an 8-bit destination: a register is always writable (R100). -/
def checkLoc8 : Location Reg8 → Except Condition Unit
  | .reg _ => .ok ()
  | .mem pa => checkWrite8 pa

/-- Phase 5 of R90 for a 16-bit destination (R100). -/
def checkLoc16 : Location Reg16 → Except Condition Unit
  | .reg _ => .ok ()
  | .mem pa => checkWrite16 pa

/-- `Write(_, 0, v)` once its check has passed (R100). -/
def writeLoc8 (s : State) (v : Byte) : Location Reg8 → State
  | .reg r => s.setReg8 r v
  | .mem pa => s.setMem (s.mem.write pa v)

/-- `Write(_, 1, v)` once its check has passed (R100). -/
def writeLoc16 (s : State) (v : Word) : Location Reg16 → State
  | .reg r => s.setReg (regOf r) v
  | .mem pa => s.setMem (s.mem.write16 pa v)

end Sys2Proof.Machine
end

