-- ==== Sys2Proof/Machine/Mov.lean ====
section
/-! DEFINITION. The four MOV instructions (41_mov.md): phases 2 to 6 of the step (R90), once for each width, and
one meaning per row of the opcode table. Every value read is that of the state the step began in (R101). -/

namespace Sys2Proof.Machine

/-- Phases 2 to 6 of R90 for an 8-bit move of `i` from `src` to `dst` (R110). -/
def moveByte (i : Instr) (dst src : Rm8) (s : State) : Except Condition State :=
  match checkIpLimit i s with
  | .error c => .error c
  | .ok _ =>
    match readLoc8 s (resolve s.regs src) with
    | .error c => .error c
    | .ok v =>
      match checkLoc8 (resolve s.regs dst) with
      | .error c => .error c
      | .ok _ => .ok (commit i 0x0000 (writeLoc8 s v (resolve s.regs dst)))

/-- Phases 2 to 6 of R90 for a 16-bit move of `i` from `src` to `dst` (R110). -/
def moveWord (i : Instr) (dst src : Rm16) (s : State) : Except Condition State :=
  match checkIpLimit i s with
  | .error c => .error c
  | .ok _ =>
    match readLoc16 s (resolve s.regs src) with
    | .error c => .error c
    | .ok v =>
      match checkLoc16 (resolve s.regs dst) with
      | .error c => .error c
      | .ok _ => .ok (commit i 0x0000 (writeLoc16 s v (resolve s.regs dst)))

/-- `MOV r/m8, r8` (R111). -/
def execMovRm8R8 (dst : Rm8) (src : Reg8) (s : State) : Host.Outcome State Fault Refusal :=
  settle s (moveByte (.movRm8R8 dst src) dst (.reg src) s)

/-- `MOV r/m16, r16` (R112). -/
def execMovRm16R16 (dst : Rm16) (src : Reg16) (s : State) : Host.Outcome State Fault Refusal :=
  settle s (moveWord (.movRm16R16 dst src) dst (.reg src) s)

/-- `MOV r8, r/m8` (R113). -/
def execMovR8Rm8 (dst : Reg8) (src : Rm8) (s : State) : Host.Outcome State Fault Refusal :=
  settle s (moveByte (.movR8Rm8 dst src) (.reg dst) src s)

/-- `MOV r16, r/m16` (R114). -/
def execMovR16Rm16 (dst : Reg16) (src : Rm16) (s : State) : Host.Outcome State Fault Refusal :=
  settle s (moveWord (.movR16Rm16 dst src) (.reg dst) src s)

end Sys2Proof.Machine
end

