-- ==== Sys2Proof/Machine/Fetch.lean ====
section
/-! DEFINITION. Instruction fetch (R78), decoding at `CS:IP` (R79), and placing a word where the next step
fetches it. -/

namespace Sys2Proof.Machine

/-- `PA(CS, IP + k)`, the exact sum (R16, R78). -/
def fetchAddr (s : State) (k : Nat) : Nat := (s.reg .cs).toNat * 16 + ((s.reg .ip).toNat + k)

/-- `FetchByte(k)` (R78): the offset limit, then the array bound, then the loaded region. -/
def fetchByte (s : State) (k : Nat) : Except Condition Byte :=
  if (s.reg .ip).toNat + k > Config.maxOffset then .error .outOfBounds
  else if fetchAddr s k ≥ Config.memSize then .error .outOfBounds
  else if fetchAddr s k < Config.imgOrigin ∨ fetchAddr s k ≥ s.imgEnd.toNat then .error .ranOffEnd
  else .ok (s.mem.read (fetchAddr s k))

/-- `Decode()` on the bytes at `CS:IP` (R79). It reads and never writes (R80). -/
def fetchInstr (s : State) : Except Condition Instr := decodeWith (fetchByte s)

/-- The bytes stored from a physical address on, those past the end of the array dropped. -/
def storeBytes (m : Memory) (a : Nat) : List Byte → Memory
  | [] => m
  | b :: bs => storeBytes (if a < Config.memSize then m.write a b else m) (a + 1) bs

/-- The state whose next step fetches `bytes` first: they stand at `CS:IP`, the loaded region reaches past
them, and the unit is `READY` (what R78 and R90 ask of a fetch). It stands for the host's LOAD (assumption 2). -/
def placeAtFetch (s : State) (bytes : List Byte) : State :=
  { s with
    mem := storeBytes s.mem (fetchAddr s 0) bytes,
    status := .ready,
    imgEnd := BitVec.ofNat 21 (max s.imgEnd.toNat
      (min Config.memSize (fetchAddr s bytes.length))) }

end Sys2Proof.Machine
end

