-- ==== Sys2Proof/Machine/Step.lean ====
section
/-! DEFINITION. One STEP of the execution unit (R90, R131, R139). -/

namespace Sys2Proof.Machine

/-- STEP: with `STATUS` not `READY` nothing changes (R131); else the instruction at `CS:IP` is decoded, and
executed, or the decoder's condition is raised (R90, R127). -/
def step (s : State) : Host.Outcome State Fault Refusal :=
  match s.status with
  | .ready =>
    match fetchInstr s with
    | .error c => .next (raise c s)
    | .ok i => exec i s
  | _ => .next s

/-- The state in which the next step fetches the table word `w` of `nbits` bits. -/
def State.withFetchWord (s : State) (nbits w : Nat) : State := placeAtFetch s (tableBytes nbits w)

end Sys2Proof.Machine
end

