-- ==== Sys2Proof/Machine/HostInterface.lean ====
section
/-! DEFINITION. The host's side (60_exceptions.md R138 to R143, 70_reset_and_hazards.md R150, R152): RUN, the
results STEP and RUN report, the snapshot reads, and the five commands with their legal order. None of it is a
step of the core; each command completes before the next is accepted (R138). -/

namespace Sys2Proof.Machine

/-! ## Results (R139; the spec's decision D17) -/

/-- `StepOutcome`. -/
inductive StepOutcome where
  | continue | halted | ranOffEnd
deriving DecidableEq, Repr

/-- `HaltReason`. -/
inductive HaltReason where
  | halted | ranOffEnd
deriving DecidableEq, Repr

/-- `ExecError`. -/
inductive ExecError where
  | unsupportedOpcode | outOfBounds | malformedOperand
deriving DecidableEq, Repr

/-- What `step()` returns. -/
inductive StepResult where
  | ok (o : StepOutcome)
  | err (e : ExecError)
deriving DecidableEq, Repr

/-- What `run()` returns. -/
inductive RunResult where
  | ok (h : HaltReason)
  | err (e : ExecError)
deriving DecidableEq, Repr

/-- What `step()` returns for the `STATUS` a STEP leaves (R139). -/
def stepResult : Status → StepResult
  | .ready => .ok .continue
  | .halted => .ok .halted
  | .ranOffEnd => .ok .ranOffEnd
  | .unsupportedOpcode => .err .unsupportedOpcode
  | .outOfBounds => .err .outOfBounds
  | .malformedOperand => .err .malformedOperand

/-- What `run()` returns for the `STATUS` a RUN ends in; `READY` is no end (R139, R140). -/
def runResult : Status → Option RunResult
  | .ready => none
  | .halted => some (.ok .halted)
  | .ranOffEnd => some (.ok .ranOffEnd)
  | .unsupportedOpcode => some (.err .unsupportedOpcode)
  | .outOfBounds => some (.err .outOfBounds)
  | .malformedOperand => some (.err .malformedOperand)

/-! ## RUN -/

/-- At most `n` STEPs, none once `STATUS` is not `READY` (R140). -/
def runSteps : Nat → State → Host.Outcome State Fault Refusal
  | 0, s => .next s
  | n + 1, s =>
    match s.status with
    | .ready =>
      match step s with
      | .next t => runSteps n t
      | .fault r => .fault r
      | .refused r => .refused r
    | _ => .next s

/-- The number of STEPs that any RUN ends within: 65,535 completed steps and one failing or halting step
(R140, assumption 10). -/
def runBound : Nat := 65536

/-- `RUN`: STEP until `STATUS` is not `READY` (R140). -/
def run (s : State) : Host.Outcome State Fault Refusal := runSteps runBound s

/-! ## Snapshot reads (R141) -/

/-- A snapshot read of one memory byte: any byte of the array (D22); an address past it names no byte. -/
def State.snapshotByte (s : State) (a : Nat) : Option Byte :=
  if a < Config.memSize then some (s.mem.read a) else none

/-- The loaded region of memory, `[IMG_ORIGIN, IMG_END)` (R22, R141). -/
def State.loadedRegion (s : State) : List Byte :=
  (List.range' Config.imgOrigin (s.imgEnd.toNat - Config.imgOrigin)).map s.mem.read

/-! ## The commands and their order -/

/-- A command of the host (R138). RESET takes `MEM0`, which R41 leaves open (assumption 1). -/
inductive Command where
  | reset (mem0 : Memory)
  | load (bytes : List Byte)
  | step
  | run
  | readReg (n : Reg)
  | readFlag (f : Flag)
  | readByte (a : Nat)
  | readRegion
  | readStatus
  | readImgEnd
deriving DecidableEq, Repr

/-- What a command answers. -/
inductive Reply where
  | resetDone
  | loaded
  | loadError
  | stepped (r : StepResult)
  | ran (r : RunResult)
  /-- A RUN cut off at `runBound`: R140 says there is none, and an obligation states so. -/
  | runUnfinished
  | word (v : Word)
  | bit (b : Bool)
  | byte (b : Option Byte)
  | bytes (bs : List Byte)
  | status (c : Status)
  | address (a : BitVec 21)
deriving DecidableEq, Repr

/-- The core with the one thing the command protocol remembers of the host's past commands: whether LOAD may
still be issued (R152). It is the host's, so `State` does not hold it (R24). -/
structure Session where
  core : State
  loadAllowed : Bool
deriving DecidableEq, Repr

/-- The session that RESET begins (R150, R152). -/
def Session.fresh (mem0 : Memory) : Session := { core := State.resetWith mem0, loadAllowed := true }

/-- The session after a STEP or a RUN that left `t`: no LOAD may follow (R152). -/
def Session.after (t : State) : Session := { core := t, loadAllowed := false }

/-- One command (R138 to R142, R152). A LOAD outside the legal order is refused by name; a LOAD that does not
fit changes nothing and may be repeated. -/
def Session.command (c : Command) (q : Session) : Host.Outcome (Session × Reply) Fault Refusal :=
  match c with
  | .reset mem0 => .next (Session.fresh mem0, .resetDone)
  | .load bytes =>
    if q.loadAllowed then
      match q.core.load bytes with
      | .next t => .next (Session.after t, .loaded)
      | .fault .loadError => .next (q, .loadError)
      | .refused r => .refused r
    else .refused .loadOutsideProtocol
  | .step =>
    match Sys2Proof.Machine.step q.core with
    | .next t => .next (Session.after t, .stepped (stepResult t.status))
    | .fault r => .fault r
    | .refused r => .refused r
  | .run =>
    match Sys2Proof.Machine.run q.core with
    | .next t =>
      .next (Session.after t,
        match runResult t.status with
        | some r => .ran r
        | none => .runUnfinished)
    | .fault r => .fault r
    | .refused r => .refused r
  | .readReg n => .next (q, .word (q.core.reg n))
  | .readFlag f => .next (q, .bit (flagValue f (q.core.reg .flags)))
  | .readByte a => .next (q, .byte (q.core.snapshotByte a))
  | .readRegion => .next (q, .bytes q.core.loadedRegion)
  | .readStatus => .next (q, .status q.core.status)
  | .readImgEnd => .next (q, .address q.core.imgEnd)

end Sys2Proof.Machine
end

