-- ==== Sys2Proof/Safety.lean ====
section
/-! DEFINITION. What the claims are stated in terms of: the invariant of the reachable states (R27), the
states a run can be in, and the ends of a run (R143). -/

namespace Sys2Proof.Machine

/-- What holds in every reachable state (R22, R27, R125), with the canonical form of the memory list: the
segment registers and `FLAGS` are zero, `IMG_END` is at most 0x100000, and `STATUS` is not `MALFORMED_OPERAND`. -/
structure State.Inv (s : State) : Prop where
  memWf : s.mem.wf = true
  imgEndLe : s.imgEnd.toNat ≤ Config.memSize
  csZero : s.reg .cs = 0x0000
  dsZero : s.reg .ds = 0x0000
  esZero : s.reg .es = 0x0000
  ssZero : s.reg .ss = 0x0000
  flagsZero : s.reg .flags = 0x0000
  statusLegal : s.status ≠ .malformedOperand

/-- The states after RESET with the array `mem0`, one successful LOAD of `image`, and any number of STEPs
(00_scope.md glossary, "Reachable state"). -/
inductive Reachable (mem0 : Memory) (image : List Byte) : State → Prop where
  | loaded {s : State} (h : (State.resetWith mem0).load image = .next s) : Reachable mem0 image s
  | stepped {s t : State} (hs : Reachable mem0 image s) (h : step s = .next t) : Reachable mem0 image t

/-- The execution unit is in a terminal state (R105, R120). -/
def State.terminal (s : State) : Prop := s.status ≠ .ready

/-- A run succeeds when it ends in `HALTED` (R143). -/
def State.succeeds (s : State) : Prop := s.status = .halted

/-- An address the stored bytes of a `width`-byte access at `pa` do not include. -/
def outsideAccess (pa width a : Nat) : Prop := a < pa ∨ pa + width ≤ a

end Sys2Proof.Machine
end

