-- ==== Sys2Proof/Certificates/Slice0/Obligations.lean ====
section
/-! DEFINITION. The statements for the provers, from the numbered rules of spec/. A next state is written with
`setReg`, `setReg8`, `setMem` and `setStatus`, each of which replaces one thing and leaves all else. -/

open Sys2Proof Sys2Proof.Machine

/-! ## Registers -/

/-- The low byte, the high byte and the parent of each 8-bit pair (R11). -/
def Sys2Proof.bytePairs : List (Reg8 × Reg8 × Reg) :=
  [(.al, .ah, .ax), (.bl, .bh, .bx), (.cl, .ch, .cx), (.dl, .dh, .dx)]

/-- R12: the 8-bit access path of the four byte pairs; a write keeps the sibling byte and writes one register. -/
def Obligations.SubregistersAreViewsOfTheirParent : Prop :=
  ∀ (lo hi : Reg8) (p : Reg), (lo, hi, p) ∈ bytePairs → ∀ (rf : RegFile) (v : Byte),
    rf.get8 lo = (rf.get p).extractLsb' 0 8 ∧
    rf.get8 hi = (rf.get p).extractLsb' 8 8 ∧
    rf.set8 lo v = rf.set p ((rf.get p).extractLsb' 8 8 ++ v) ∧
    rf.set8 hi v = rf.set p (v ++ (rf.get p).extractLsb' 0 8)

/-- R13: the 16-bit access path over all fourteen registers; a write mutates exactly one register, a 16-bit write
changes both sub-registers, and a read after a pair of 8-bit writes sees both. -/
def Obligations.SixteenBitAccessPath : Prop :=
  (∀ (rf : RegFile) (n : Reg) (v : Word),
    (rf.set n v).get n = v ∧ ∀ k : Reg, k ≠ n → (rf.set n v).get k = rf.get k) ∧
  (∀ (lo hi : Reg8) (p : Reg), (lo, hi, p) ∈ bytePairs → ∀ (rf : RegFile) (v : Word) (l h : Byte),
    (rf.set p v).get8 lo = v.extractLsb' 0 8 ∧ (rf.set p v).get8 hi = v.extractLsb' 8 8 ∧
    ((rf.set8 lo l).set8 hi h).get p = h ++ l)

/-- The register code table of R14. Its rows 001 to 110 are the spec's decision D15 (G1). -/
def Obligations.RegisterCodeTable : Prop :=
  ∀ k : Fin 8,
    Reg8.ofCode (BitVec.ofNat 3 k.val) = [Reg8.al, .cl, .dl, .bl, .ah, .ch, .dh, .bh][k] ∧
    Reg16.ofCode (BitVec.ofNat 3 k.val) = [Reg16.ax, .cx, .dx, .bx, .sp, .bp, .si, .di][k] ∧
    regOf (Reg16.ofCode (BitVec.ofNat 3 k.val)) = [Reg.ax, .cx, .dx, .bx, .sp, .bp, .si, .di][k]

/-! ## Memory -/

/-- R45, R46: the byte primitives on every canonical memory. A write keeps the canonical form and changes
exactly one byte. -/
def Obligations.ByteAccessPrimitives : Prop :=
  ∀ (m : Memory) (pa : Nat) (v : Byte), m.wf = true →
    (0x100000 ≤ pa → memRead8 m pa = .error .outOfBounds ∧ memWrite8 m pa v = .error .outOfBounds) ∧
    (pa < 0x100000 → memRead8 m pa = .ok (m.read pa) ∧
      ∃ m' : Memory, memWrite8 m pa v = .ok m' ∧ m'.wf = true ∧ m'.read pa = v ∧
        ∀ a : Nat, a ≠ pa → m'.read a = m.read a)

/-- R48 and R47: the word primitives on every canonical memory, low byte at the lower address; a write whose
second byte is out of bounds writes neither. That the second byte is at `pa + 1` is the spec's decision D13. -/
def Obligations.WordAccessPrimitives : Prop :=
  ∀ (m : Memory) (pa : Nat) (v : Word), m.wf = true →
    (0x100000 ≤ pa + 1 → memRead16 m pa = .error .outOfBounds ∧ memWrite16 m pa v = .error .outOfBounds) ∧
    (pa + 1 < 0x100000 → memRead16 m pa = .ok (m.read (pa + 1) ++ m.read pa) ∧
      ∃ m' : Memory, memWrite16 m pa v = .ok m' ∧ m'.wf = true ∧
        m'.read pa = v.extractLsb' 0 8 ∧ m'.read (pa + 1) = v.extractLsb' 8 8 ∧
        (∀ a : Nat, outsideAccess pa 2 a → m'.read a = m.read a) ∧ memRead16 m' pa = .ok v)

/-- R40: a memory array is its bytes. Two canonical lists that read the same everywhere are one list (the list
is the model's way of writing the array down, assumption 1). -/
def Obligations.MemoryListsAreCanonical : Prop :=
  ∀ m n : Memory, m.wf = true → n.wf = true → (∀ a : Nat, a < 0x100000 → m.read a = n.read a) → m = n

/-- R58: LOAD. The image lands unchanged at address 0 (the spec's decision D5), or nothing happens. -/
def Obligations.LoadCopiesTheImage : Prop :=
  ∀ (bytes : List Byte) (s : State), s.mem.wf = true →
    (0x100000 < bytes.length → s.load bytes = .fault .loadError) ∧
    (bytes.length ≤ 0x100000 → ∃ t : State, s.load bytes = .next t ∧ t.mem.wf = true ∧
      (∀ (k : Nat) (h : k < bytes.length), t.mem.read k = bytes[k]) ∧
      (∀ a : Nat, bytes.length ≤ a → t.mem.read a = s.mem.read a) ∧
      t.imgEnd.toNat = bytes.length ∧ t.regs = s.regs ∧ t.status = s.status)

/-! ## Reset -/

/-- R25, R150: RESET from any session, for every `MEM0`. `STATUS`, `IMG_END` and the open `MEM0` are the spec's
decisions D9, D18 and D10; that `State.reset` takes the all-zero array is the model's choice (assumption 1). -/
def Obligations.ResetLeavesTheRegistersZero : Prop :=
  (∀ (mem0 : Memory) (q : Session),
    q.command (.reset mem0) = .next ({ core := State.resetWith mem0, loadAllowed := true }, .resetDone)) ∧
  (∀ mem0 : Memory,
    (∀ n : Reg, (State.resetWith mem0).reg n = 0x0000) ∧ (∀ n : Reg8, (State.resetWith mem0).reg8 n = 0x00) ∧
    (State.resetWith mem0).status = .ready ∧ (State.resetWith mem0).imgEnd = 0 ∧
    (State.resetWith mem0).mem = mem0) ∧
  (∀ a : Nat, State.reset = State.resetWith [] ∧ State.reset.mem.read a = 0x00)

/-! ## Encoding -/

/-- Every well-formed instruction is read back from its bytes, whatever bytes follow, and its bytes are as many as
the length formula of R72 says. The encoding rests on the spec's decisions D3, D15, D24 and D26. -/
def Obligations.DecodeOfEncode : Prop :=
  ∀ (i : Instr) (rest : List Byte), i.wellFormed = true →
    decode (encode i ++ rest) = .ok i ∧ (encode i).length = i.length

/-- What the decoder reads is well-formed, and the bytes it read are exactly that instruction's encoding. -/
def Obligations.EncodeOfDecode : Prop :=
  ∀ (bs : List Byte) (i : Instr), decode bs = .ok i →
    i.wellFormed = true ∧ ∃ rest : List Byte, bs = encode i ++ rest

/-- R72: the length of an instruction from its first byte and its mode byte; REG, D and W never change it. -/
def Obligations.InstructionLengthTable : Prop :=
  (∀ (b0 b1 d0 d1 : Byte) (i : Instr), b0 ∈ [0x88#8, 0x89#8, 0x8A#8, 0x8B#8] →
    decode [b0, b1, d0, d1] = .ok i →
      (b1.extractLsb' 6 2 = 0b11#2 → i.length = 2) ∧
      (b1.extractLsb' 6 2 = 0b00#2 → b1.extractLsb' 0 3 ≠ 0b110#3 → i.length = 2) ∧
      (b1.extractLsb' 6 2 = 0b01#2 → i.length = 3) ∧
      (b1.extractLsb' 6 2 = 0b10#2 → i.length = 4) ∧
      (b1.extractLsb' 6 2 = 0b00#2 → b1.extractLsb' 0 3 = 0b110#3 → i.length = 4)) ∧
  Instr.hlt.length = 1

/-- R77: every mode byte is legal for the four MOV first bytes, and no step brings `MALFORMED_OPERAND` about. -/
def Obligations.EveryModeByteIsLegal : Prop :=
  (∀ b0 b1 d0 d1 : Byte, b0 ∈ [0x88#8, 0x89#8, 0x8A#8, 0x8B#8] →
    ∃ i : Instr, decode [b0, b1, d0, d1] = .ok i) ∧
  (∀ s t : State, step s = .next t → t.status = .malformedOperand → s.status = .malformedOperand)

/-- R61, R67 to R69: the fields of the instruction record are the bits the encoding tables name. The byte order of
a 16-bit displacement is the spec's decision D24. -/
def Obligations.DecodedFieldsAreTheEncodedBits : Prop :=
  ∀ (b0 b1 d0 d1 : Byte) (i : Instr), b0 ∈ [0x88#8, 0x89#8, 0x8A#8, 0x8B#8] →
    decode [b0, b1, d0, d1] = .ok i →
      i.record.mnemonic = .mov ∧ i.record.d = b0.getLsbD 1 ∧ i.record.w = b0.getLsbD 0 ∧
      i.record.mode = some (b1.extractLsb' 6 2, b1.extractLsb' 3 3, b1.extractLsb' 0 3) ∧
      (b1.extractLsb' 6 2 = 0b11#2 → i.record.dispSize = 0 ∧ i.record.disp = 0x0000) ∧
      (b1.extractLsb' 6 2 = 0b00#2 → b1.extractLsb' 0 3 ≠ 0b110#3 →
        i.record.dispSize = 0 ∧ i.record.disp = 0x0000) ∧
      (b1.extractLsb' 6 2 = 0b00#2 → b1.extractLsb' 0 3 = 0b110#3 →
        i.record.dispSize = 2 ∧ i.record.disp = d1 ++ d0) ∧
      (b1.extractLsb' 6 2 = 0b01#2 → i.record.dispSize = 1 ∧
        i.record.disp.toNat = (if d0.toNat < 0x80 then d0.toNat else 0xFF00 + d0.toNat)) ∧
      (b1.extractLsb' 6 2 = 0b10#2 → i.record.dispSize = 2 ∧ i.record.disp = d1 ++ d0)

/-- Words written out from the encodings of R61, R62 and R67 (95_test_vectors.md), one or more of each row. Those rules
give the layout; the codes in it are the spec's own decisions (log entry 4): 0xF4 is HLT by D3, AH and DI are the
codes 100 and 111 by D15 (R14), the 16-bit displacement is low byte first by D24, and the base expressions have their
codes by D26. -/
def Obligations.WordsOfTheSpecDecode : Prop :=
  decode [0x88, 0xC3] = .ok (.movRm8R8 (.reg .bl) .al) ∧
  decode [0x88, 0x06, 0x08, 0x00] = .ok (.movRm8R8 (.mem (.direct 0x0008)) .al) ∧
  decode [0x89, 0x86, 0x00, 0x01] = .ok (.movRm16R16 (.mem (.disp16 .bp 0x0100)) .ax) ∧
  decode [0x8A, 0x60, 0xFF] = .ok (.movR8Rm8 .ah (.mem (.disp8 .bxSi 0xFF))) ∧
  decode [0x8B, 0x3A] = .ok (.movR16Rm16 .di (.mem (.base .bpSi))) ∧
  decode [0xF4] = .ok .hlt

/-- R66, R76: a first byte of no row is refused by name, and nothing after it is looked at. That the lookup comes
before the mode byte and that 0xF5 to 0xF7 are no HLT are the spec's decisions D4 and D19. -/
def Obligations.OtherFirstBytesAreUnsupported : Prop :=
  ∀ (b0 : Byte) (rest : List Byte), b0 ∉ [0x88#8, 0x89#8, 0x8A#8, 0x8B#8, 0xF4#8] →
    decode (b0 :: rest) = .error .unsupportedOpcode

/-! ## Addresses -/

/-- The register sum each base expression names (R95; the index order is the spec's decision D26). -/
def Sys2Proof.baseRegisters : List (BaseExpr × List Reg) :=
  [(.bxSi, [.bx, .si]), (.bxDi, [.bx, .di]), (.bpSi, [.bp, .si]), (.bpDi, [.bp, .di]),
   (.si, [.si]), (.di, [.di]), (.bp, [.bp]), (.bx, [.bx])]

/-- R95 to R98, R43: the offset and the physical address of every memory operand. The segment's factor 16, the
choice of segment, the wrap of the base sum and the index order are the spec's decisions D11, D12 and D26 (log
entry 4). The clause for `.base` also speaks of the term `.base .bp`, which no bytes encode (R95 allows base `BP` at
MOD 01 and 10 only, R96): that it addresses `SS * 16 + BP` is the model's own choice (DESIGN CHOICE, log entry 6). -/
def Obligations.OperandAddressTable : Prop :=
  (∀ (rf : RegFile) (a : Word), operandAddr rf (.direct a) = (rf.get .ds).toNat * 16 + a.toNat) ∧
  (∀ (b : BaseExpr) (rs : List Reg), (b, rs) ∈ baseRegisters → ∀ (rf : RegFile) (d8 : Byte) (d16 : Word),
    operandAddr rf (.base b) =
      (rf.get (if Reg.bp ∈ rs then .ss else .ds)).toNat * 16 +
        ((rs.map fun r => (rf.get r).toNat).sum) % 0x10000 ∧
    operandAddr rf (.disp8 b d8) =
      (rf.get (if Reg.bp ∈ rs then .ss else .ds)).toNat * 16 +
        ((rs.map fun r => (rf.get r).toNat).sum +
          (if d8.toNat < 0x80 then d8.toNat else 0xFF00 + d8.toNat)) % 0x10000 ∧
    operandAddr rf (.disp16 b d16) =
      (rf.get (if Reg.bp ∈ rs then .ss else .ds)).toNat * 16 +
        ((rs.map fun r => (rf.get r).toNat).sum + d16.toNat) % 0x10000)

/-! ## What each instruction does, where it completes -/

/-- The state a completed MOV of `len` bytes leaves, once its destination is written (R17, R90). -/
def Sys2Proof.moved (s : State) (len : Nat) : State :=
  (s.setReg .ip (s.reg .ip + BitVec.ofNat 16 len)).setStatus .ready

/-- R111: `MOV r/m8, r8` in every form, where it completes. The `IP` limit is the spec's decision D2. -/
def Obligations.MovRm8R8Completes : Prop :=
  (∀ (d r : Reg8) (s : State), (s.reg .ip).toNat + 2 ≤ 0xFFFF →
    exec (.movRm8R8 (.reg d) r) s = .next (moved (s.setReg8 d (s.reg8 r)) 2)) ∧
  (∀ (m : MemOperand) (r : Reg8) (s : State), m.wellFormed = true →
    (s.reg .ip).toNat + (2 + m.dispBytes.length) ≤ 0xFFFF → operandAddr s.regs m < 0x100000 →
    exec (.movRm8R8 (.mem m) r) s =
      .next (moved (s.setMem (s.mem.write (operandAddr s.regs m) (s.reg8 r))) (2 + m.dispBytes.length)))

/-- R112: `MOV r/m16, r16` in every form, where it completes. The `IP` limit is the spec's decision D2. -/
def Obligations.MovRm16R16Completes : Prop :=
  (∀ (d r : Reg16) (s : State), (s.reg .ip).toNat + 2 ≤ 0xFFFF →
    exec (.movRm16R16 (.reg d) r) s = .next (moved (s.setReg (regOf d) (s.reg (regOf r))) 2)) ∧
  (∀ (m : MemOperand) (r : Reg16) (s : State), m.wellFormed = true →
    (s.reg .ip).toNat + (2 + m.dispBytes.length) ≤ 0xFFFF → operandAddr s.regs m + 1 < 0x100000 →
    exec (.movRm16R16 (.mem m) r) s =
      .next (moved (s.setMem ((s.mem.write (operandAddr s.regs m) ((s.reg (regOf r)).extractLsb' 0 8)).write
        (operandAddr s.regs m + 1) ((s.reg (regOf r)).extractLsb' 8 8))) (2 + m.dispBytes.length)))

/-- R113: `MOV r8, r/m8` in every form, where it completes. The `IP` limit is the spec's decision D2. -/
def Obligations.MovR8Rm8Completes : Prop :=
  (∀ (d r : Reg8) (s : State), (s.reg .ip).toNat + 2 ≤ 0xFFFF →
    exec (.movR8Rm8 d (.reg r)) s = .next (moved (s.setReg8 d (s.reg8 r)) 2)) ∧
  (∀ (d : Reg8) (m : MemOperand) (s : State), m.wellFormed = true →
    (s.reg .ip).toNat + (2 + m.dispBytes.length) ≤ 0xFFFF → operandAddr s.regs m < 0x100000 →
    exec (.movR8Rm8 d (.mem m)) s =
      .next (moved (s.setReg8 d (s.mem.read (operandAddr s.regs m))) (2 + m.dispBytes.length)))

/-- R114: `MOV r16, r/m16` in every form, where it completes. The `IP` limit is the spec's decision D2. -/
def Obligations.MovR16Rm16Completes : Prop :=
  (∀ (d r : Reg16) (s : State), (s.reg .ip).toNat + 2 ≤ 0xFFFF →
    exec (.movR16Rm16 d (.reg r)) s = .next (moved (s.setReg (regOf d) (s.reg (regOf r))) 2)) ∧
  (∀ (d : Reg16) (m : MemOperand) (s : State), m.wellFormed = true →
    (s.reg .ip).toNat + (2 + m.dispBytes.length) ≤ 0xFFFF → operandAddr s.regs m + 1 < 0x100000 →
    exec (.movR16Rm16 d (.mem m)) s =
      .next (moved (s.setReg (regOf d)
        (s.mem.read (operandAddr s.regs m + 1) ++ s.mem.read (operandAddr s.regs m))) (2 + m.dispBytes.length)))

/-- R118: HLT completes, one byte further on and `HALTED`. Its encoding is the spec's decision D3, the `IP` limit
D2. -/
def Obligations.HltCompletes : Prop :=
  (∀ s : State, (s.reg .ip).toNat + 1 ≤ 0xFFFF →
    exec .hlt s = .next ((s.setReg .ip (s.reg .ip + 1)).setStatus .halted)) ∧
  encode .hlt = [0xF4]

/-- R91, R110, R123 (c), (d): where `exec` raises `OutOfBounds` instead: `IP + L` past 0xFFFF for every instruction
(the spec's decision D2), and a memory operand that is not whole inside the array for the MOVs. Nothing but
`STATUS` changes. What it says of the unencodable term `[BP]` is the model's own choice (log entry 6). -/
def Obligations.ExecRaisesOutOfBounds : Prop :=
  (∀ (i : Instr) (s : State), i.wellFormed = true → 0xFFFF < (s.reg .ip).toNat + (encode i).length →
    exec i s = .next (s.setStatus .outOfBounds)) ∧
  (∀ (m : MemOperand) (r : Reg8) (s : State), 0x100000 ≤ operandAddr s.regs m →
    exec (.movRm8R8 (.mem m) r) s = .next (s.setStatus .outOfBounds) ∧
    exec (.movR8Rm8 r (.mem m)) s = .next (s.setStatus .outOfBounds)) ∧
  (∀ (m : MemOperand) (r : Reg16) (s : State), 0x100000 ≤ operandAddr s.regs m + 1 →
    exec (.movRm16R16 (.mem m) r) s = .next (s.setStatus .outOfBounds) ∧
    exec (.movR16Rm16 r (.mem m)) s = .next (s.setStatus .outOfBounds))

/-! ## Frames -/

/-- The instructions and forms that store nothing, each with the 16-bit register its destination lies in (none for
HLT). -/
inductive Sys2Proof.StoresNothing : Instr → Option Reg → Prop where
  | movRm8R8 (d r : Reg8) : StoresNothing (.movRm8R8 (.reg d) r) (some (parentOf d))
  | movRm16R16 (d r : Reg16) : StoresNothing (.movRm16R16 (.reg d) r) (some (regOf d))
  | movR8Rm8 (d : Reg8) (src : Rm8) : StoresNothing (.movR8Rm8 d src) (some (parentOf d))
  | movR16Rm16 (d : Reg16) (src : Rm16) : StoresNothing (.movR16Rm16 d src) (some (regOf d))
  | hlt : StoresNothing .hlt none

/-- Frame of the forms that store nothing (R111 to R114, R118): every byte of memory, `IMG_END` and every register
but the destination and `IP` keep their value, `FLAGS` and the segment registers among them; an 8-bit destination
keeps every other sub-register. -/
def Obligations.RegisterFormsFrame : Prop :=
  (∀ (i : Instr) (dst : Option Reg) (s t : State), StoresNothing i dst → exec i s = .next t →
    (∀ a : Nat, t.mem.read a = s.mem.read a) ∧ t.mem = s.mem ∧ t.imgEnd = s.imgEnd ∧
    (∀ n : Reg, n ≠ .ip → dst ≠ some n → t.reg n = s.reg n)) ∧
  (∀ (d r : Reg8) (src : Rm8) (s t : State),
    (exec (.movRm8R8 (.reg d) r) s = .next t ∨ exec (.movR8Rm8 d src) s = .next t) →
    ∀ k : Reg8, k ≠ d → t.reg8 k = s.reg8 k)

/-- Frame of the storing forms (R111, R112): every byte outside the one or two bytes at the operand's address, every
register but `IP`, and `IMG_END` keep their value. What it says of the unencodable term `[BP]` is the model's own
choice (log entry 6). -/
def Obligations.MemoryFormsFrame : Prop :=
  (∀ (m : MemOperand) (r : Reg8) (s t : State), exec (.movRm8R8 (.mem m) r) s = .next t →
    (∀ a : Nat, outsideAccess (operandAddr s.regs m) 1 a → t.mem.read a = s.mem.read a) ∧
    (∀ n : Reg, n ≠ .ip → t.reg n = s.reg n) ∧ t.imgEnd = s.imgEnd) ∧
  (∀ (m : MemOperand) (r : Reg16) (s t : State), exec (.movRm16R16 (.mem m) r) s = .next t →
    (∀ a : Nat, outsideAccess (operandAddr s.regs m) 2 a → t.mem.read a = s.mem.read a) ∧
    (∀ n : Reg, n ≠ .ip → t.reg n = s.reg n) ∧ t.imgEnd = s.imgEnd)

/-! ## The flag-update logic -/

/-- R106: the flags of a descriptor's set come from the new value, every other bit from `FLAGS`; both rows of the
table write no flag, so their update is the identity. -/
def Obligations.FlagUpdateWritesOnlyItsFlags : Prop :=
  (∀ (written : List Flag) (new flags : Word) (k : Nat), k < 16 →
    (flagUpdate written new flags).getLsbD k =
      (if k ∈ written.map flagBit then new.getLsbD k else flags.getLsbD k)) ∧
  (∀ row ∈ opcodeTable, ∀ new flags : Word, flagUpdate row.flagsWritten new flags = flags)

/-- R107: whatever value stands in `FLAGS`, every instruction does the same and leaves it there. -/
def Obligations.FlagsAreNeitherReadNorWritten : Prop :=
  ∀ (i : Instr) (s : State) (v : Word), ∃ t : State, exec i s = .next t ∧ t.reg .flags = s.reg .flags ∧
    exec i (s.setReg .flags v) = .next (t.setReg .flags v)

/-! ## The step -/

/-- R90: when the bytes at `CS:IP` are those of a well-formed instruction, inside the loaded region, a STEP in state
`READY` is `exec` of it at that state (`exec` itself advances `IP`). -/
def Obligations.StepRunsTheDecodedInstruction : Prop :=
  ∀ (i : Instr) (s : State), i.wellFormed = true → s.status = .ready →
    (s.reg .ip).toNat + (encode i).length ≤ 0x10000 →
    (s.reg .cs).toNat * 16 + (s.reg .ip).toNat + (encode i).length ≤ 0x100000 →
    (s.reg .cs).toNat * 16 + (s.reg .ip).toNat + (encode i).length ≤ s.imgEnd.toNat →
    (∀ (k : Nat) (h : k < (encode i).length),
      s.mem.read ((s.reg .cs).toNat * 16 + (s.reg .ip).toNat + k) = (encode i)[k]) →
    step s = exec i s

/-- R78: the three checks of an instruction-byte fetch, in their order (the spec's decisions D2, D6, D7). -/
def Obligations.FetchByteChecks : Prop :=
  ∀ (s : State) (k pa : Nat), pa = (s.reg .cs).toNat * 16 + ((s.reg .ip).toNat + k) →
    (0xFFFF < (s.reg .ip).toNat + k → fetchByte s k = .error .outOfBounds) ∧
    ((s.reg .ip).toNat + k ≤ 0xFFFF → 0x100000 ≤ pa → fetchByte s k = .error .outOfBounds) ∧
    ((s.reg .ip).toNat + k ≤ 0xFFFF → pa < 0x100000 → s.imgEnd.toNat ≤ pa →
      fetchByte s k = .error .ranOffEnd) ∧
    ((s.reg .ip).toNat + k ≤ 0xFFFF → pa < 0x100000 → pa < s.imgEnd.toNat →
      fetchByte s k = .ok (s.mem.read pa))

/-- R126 rows 1, 2, 4 and 5: the first byte of an instruction whose fetch fails ends the step with that fetch's
condition and nothing else changed (the order is the spec's decision D7). -/
def Obligations.FailedFetchEndsTheStep : Prop :=
  ∀ (i : Instr) (s : State) (k : Nat) (c : Condition), i.wellFormed = true → s.status = .ready →
    k < (encode i).length → (∀ (j : Nat) (h : j < (encode i).length), j < k → fetchByte s j = .ok (encode i)[j]) →
    fetchByte s k = .error c → step s = .next (s.setStatus (statusOf c))

/-- R122: a first byte that selects no row ends the step; the mode byte plays no part, and `IP` still points at the
offending byte. -/
def Obligations.UnsupportedOpcodeEndsTheStep : Prop :=
  ∀ (s : State) (b0 : Byte), s.status = .ready → fetchByte s 0 = .ok b0 →
    b0 ∉ [0x88#8, 0x89#8, 0x8A#8, 0x8B#8, 0xF4#8] → step s = .next (s.setStatus .unsupportedOpcode)

/-- R131: a STEP in a terminal state changes nothing (the spec's decision D9). -/
def Obligations.TerminalStatesAreSticky : Prop :=
  ∀ s : State, s.terminal → step s = .next s

/-- R104, R90, R118: a STEP in state `READY` fully completes, with the program counter advanced past its instruction
and the flags updated by the identity, or it changes nothing but `STATUS`, which takes a condition's code. That the
sum `IP + L` is exact, without a wrap, is the spec's decision D2 (log entry 4); that a completed step leaves `HALTED`
for HLT and `READY` otherwise is R90 and R118. -/
def Obligations.StepIsAllOrNothing : Prop :=
  ∀ s : State, s.status = .ready →
    (∃ c : Condition, step s = .next (s.setStatus (statusOf c))) ∨
    (∃ (i : Instr) (t : State), fetchInstr s = .ok i ∧ step s = .next t ∧ exec i s = .next t ∧
      (t.status = .ready ∨ t.status = .halted) ∧ (t.status = .halted ↔ i = .hlt) ∧
      (t.reg .ip).toNat = (s.reg .ip).toNat + i.length ∧ t.reg .flags = s.reg .flags)

/-- R17, R28: `IP` never decreases, a completed step advances it by 1 to 4, and it never wraps. -/
def Obligations.InstructionPointerAdvances : Prop :=
  ∀ s t : State, s.status = .ready → step s = .next t →
    ((t.status = .ready ∨ t.status = .halted) → (s.reg .ip).toNat + 1 ≤ (t.reg .ip).toNat ∧
      (t.reg .ip).toNat ≤ (s.reg .ip).toNat + 4) ∧
    (t.status ≠ .ready → t.status ≠ .halted → t.reg .ip = s.reg .ip)

/-- R80: decoding depends on `CS`, `IP`, `IMG_END` and the bytes at `CS:IP` alone. -/
def Obligations.DecodingIsAFunctionOfTheBytes : Prop :=
  ∀ s t : State, s.reg .cs = t.reg .cs → s.reg .ip = t.reg .ip → s.imgEnd = t.imgEnd →
    (∀ k : Nat, k < 4 → s.mem.read ((s.reg .cs).toNat * 16 + ((s.reg .ip).toNat + k)) =
      t.mem.read ((s.reg .cs).toNat * 16 + ((s.reg .ip).toNat + k))) →
    fetchInstr s = fetchInstr t

/-- R56: a store is seen by the instruction fetches after it. What it says of the unencodable term `[BP]` is the
model's own choice (log entry 6). -/
def Obligations.StoresAreSeenByTheNextFetch : Prop :=
  (∀ (m : MemOperand) (r : Reg8) (s t : State) (k : Nat) (b : Byte), s.mem.wf = true →
    exec (.movRm8R8 (.mem m) r) s = .next t → t.status = .ready → fetchByte t k = .ok b →
    fetchAddr t k = operandAddr s.regs m → b = s.reg8 r) ∧
  (∀ (m : MemOperand) (r : Reg16) (s t : State) (k : Nat) (b : Byte), s.mem.wf = true →
    exec (.movRm16R16 (.mem m) r) s = .next t → t.status = .ready → fetchByte t k = .ok b →
    (fetchAddr t k = operandAddr s.regs m → b = (s.reg (regOf r)).extractLsb' 0 8) ∧
    (fetchAddr t k = operandAddr s.regs m + 1 → b = (s.reg (regOf r)).extractLsb' 8 8))

/-- R15, R20: no step writes a segment register or `IMG_END`, and `ES` is used by nothing. -/
def Obligations.SegmentRegistersAreNeverWritten : Prop :=
  ∀ s t : State, step s = .next t →
    t.reg .cs = s.reg .cs ∧ t.reg .ds = s.reg .ds ∧ t.reg .es = s.reg .es ∧ t.reg .ss = s.reg .ss ∧
    t.imgEnd = s.imgEnd ∧ ∀ v : Word, step (s.setReg .es v) = .next (t.setReg .es v)

/-! ## Reachable states and runs -/

/-- The invariant holds after RESET, for every canonical `MEM0`, and LOAD keeps it (R25, R27, R58). -/
def Obligations.InvariantHoldsAfterResetAndLoad : Prop :=
  State.reset.Inv ∧ (∀ mem0 : Memory, mem0.wf = true → (State.resetWith mem0).Inv) ∧
  (∀ (bytes : List Byte) (s t : State), s.Inv → s.load bytes = .next t → t.Inv)

/-- R27, R125: every step keeps the invariant: segment registers and `FLAGS` zero, `IMG_END` at most 0x100000, memory
canonical, `STATUS` never `MALFORMED_OPERAND`. -/
def Obligations.EveryStepKeepsTheInvariant : Prop :=
  ∀ s t : State, s.Inv → step s = .next t → t.Inv

/-- R27: in every reachable state the segment registers and `FLAGS` are zero, a physical address is the offset, and no
MOV that fits below the `IP` limit runs out of bounds on its data. A corollary of the invariant over runs from reset.
The `IP` limit is the spec's decision D2 (log entry 4). That `exec` completes in a terminal state too, since it does
not look at `STATUS`, is the model's reading (DEDUCED, log entry 5), and what is said of the unencodable term `[BP]`
its own choice (DESIGN CHOICE, log entry 6). -/
def Obligations.ReachableStatesAddressWithoutSegments : Prop :=
  ∀ (mem0 : Memory) (image : List Byte) (s : State), mem0.wf = true → Reachable mem0 image s →
    s.Inv ∧
    (∀ m : MemOperand, operandAddr s.regs m = (effAddr s.regs m).toNat) ∧
    (∀ k : Nat, fetchAddr s k = (s.reg .ip).toNat + k) ∧
    (∀ i : Instr, (s.reg .ip).toNat + i.length ≤ 0xFFFF →
      ∃ t : State, exec i s = .next t ∧ (t.status = .ready ∨ t.status = .halted))

/-- R140, R28: RUN ends from every state, in a terminal state that at most 65,536 STEPs reach, of which all but the
last leave `READY`; it is nothing but iterated STEP. That runs end rests on the ban on the wrap of `IP`, the spec's
decision D2; that RUN is iterated STEP is its decision D22, that it stops in a terminal state D9 (log entry 4). The
bound in the definition of `run` is R140's (log entry 10). -/
def Obligations.EveryRunEnds : Prop :=
  ∀ s : State, ∃ (n : Nat) (t : State), n ≤ 65536 ∧ run s = .next t ∧ Host.Core.run core n s = .next t ∧
    t.terminal ∧ ∀ (j : Nat) (u : State), j < n → Host.Core.run core j s = .next u → u.status = .ready

/-! ## The host interface -/

/-- R142: after LOAD no command but STEP, RUN and RESET changes the core. -/
def Obligations.TheHostCannotWriteAfterLoad : Prop :=
  ∀ (c : Command) (q q' : Session) (r : Reply), q.loadAllowed = false → q.command c = .next (q', r) →
    (∀ mem0 : Memory, c ≠ .reset mem0) → c ≠ .step → c ≠ .run → q'.core = q.core

/-- R152: the command protocol (the spec's decision D18): a LOAD that does not fit changes nothing and may be
repeated; one that fits, a STEP or a RUN ends the time for LOAD; a LOAD after that is refused by name; RESET begins
anew from any session. -/
def Obligations.CommandProtocol : Prop :=
  (∀ (bytes : List Byte) (q : Session), q.loadAllowed = true → 0x100000 < bytes.length →
    q.command (.load bytes) = .next (q, .loadError)) ∧
  (∀ (bytes : List Byte) (q : Session), q.loadAllowed = true → bytes.length ≤ 0x100000 →
    ∃ t : State, q.core.load bytes = .next t ∧
      q.command (.load bytes) = .next ({ core := t, loadAllowed := false }, .loaded)) ∧
  (∀ (bytes : List Byte) (q : Session), q.loadAllowed = false →
    q.command (.load bytes) = .refused .loadOutsideProtocol) ∧
  (∀ q : Session, ∃ t : State, step q.core = .next t ∧
    q.command .step = .next ({ core := t, loadAllowed := false }, .stepped (stepResult t.status))) ∧
  (∀ (mem0 : Memory) (q : Session), ∃ q' : Session, q.command (.reset mem0) = .next (q', .resetDone) ∧
    q'.loadAllowed = true)

/-- R139, R140: the RUN command ends from every session and reports the result of the terminal `STATUS` it ends in (the
result types are the spec's decision D17). -/
def Obligations.RunReportsItsTerminalStatus : Prop :=
  ∀ q : Session, ∃ (t : State) (r : RunResult), run q.core = .next t ∧
    q.command .run = .next ({ core := t, loadAllowed := false }, .ran r) ∧
    (t.status = .halted → r = .ok .halted) ∧ (t.status = .ranOffEnd → r = .ok .ranOffEnd) ∧
    (t.status = .unsupportedOpcode → r = .err .unsupportedOpcode) ∧
    (t.status = .outOfBounds → r = .err .outOfBounds) ∧
    (t.status = .malformedOperand → r = .err .malformedOperand) ∧ t.status ≠ .ready
end

