-- ==== Sys2Proof/Laws/State.lean ====
section
/-! SUPPORT. One lemma per field of the state and per update (setReg, setReg8, setMem, setStatus), and what a
condition leaves. -/

namespace Sys2Proof.Machine

@[simp] theorem setReg_regs (s : State) (n : Reg) (v : Word) : (s.setReg n v).regs = s.regs.set n v := rfl
@[simp] theorem setReg_mem (s : State) (n : Reg) (v : Word) : (s.setReg n v).mem = s.mem := rfl
@[simp] theorem setReg_status (s : State) (n : Reg) (v : Word) : (s.setReg n v).status = s.status := rfl
@[simp] theorem setReg_imgEnd (s : State) (n : Reg) (v : Word) : (s.setReg n v).imgEnd = s.imgEnd := rfl

@[simp] theorem setReg8_regs (s : State) (n : Reg8) (v : Byte) : (s.setReg8 n v).regs = s.regs.set8 n v := rfl
@[simp] theorem setReg8_mem (s : State) (n : Reg8) (v : Byte) : (s.setReg8 n v).mem = s.mem := rfl
@[simp] theorem setReg8_status (s : State) (n : Reg8) (v : Byte) : (s.setReg8 n v).status = s.status := rfl
@[simp] theorem setReg8_imgEnd (s : State) (n : Reg8) (v : Byte) : (s.setReg8 n v).imgEnd = s.imgEnd := rfl

@[simp] theorem setMem_regs (s : State) (m : Memory) : (s.setMem m).regs = s.regs := rfl
@[simp] theorem setMem_mem (s : State) (m : Memory) : (s.setMem m).mem = m := rfl
@[simp] theorem setMem_status (s : State) (m : Memory) : (s.setMem m).status = s.status := rfl
@[simp] theorem setMem_imgEnd (s : State) (m : Memory) : (s.setMem m).imgEnd = s.imgEnd := rfl

@[simp] theorem setStatus_regs (s : State) (c : Status) : (s.setStatus c).regs = s.regs := rfl
@[simp] theorem setStatus_mem (s : State) (c : Status) : (s.setStatus c).mem = s.mem := rfl
@[simp] theorem setStatus_status (s : State) (c : Status) : (s.setStatus c).status = c := rfl
@[simp] theorem setStatus_imgEnd (s : State) (c : Status) : (s.setStatus c).imgEnd = s.imgEnd := rfl

@[simp] theorem setMem_reg (s : State) (m : Memory) (n : Reg) : (s.setMem m).reg n = s.reg n := rfl
@[simp] theorem setStatus_reg (s : State) (c : Status) (n : Reg) : (s.setStatus c).reg n = s.reg n := rfl
@[simp] theorem setMem_reg8 (s : State) (m : Memory) (n : Reg8) : (s.setMem m).reg8 n = s.reg8 n := rfl
@[simp] theorem setStatus_reg8 (s : State) (c : Status) (n : Reg8) : (s.setStatus c).reg8 n = s.reg8 n := rfl
@[simp] theorem resetWith_status (m : Memory) : (State.resetWith m).status = .ready := rfl
@[simp] theorem resetWith_imgEnd (m : Memory) : (State.resetWith m).imgEnd = 0 := rfl
@[simp] theorem resetWith_mem (m : Memory) : (State.resetWith m).mem = m := rfl
@[simp] theorem resetWith_reg (m : Memory) (n : Reg) : (State.resetWith m).reg n = 0x0000 := by cases n <;> rfl

/-- `raise` is an update of `STATUS` alone (R127). -/
theorem raise_eq (c : Condition) (s : State) : raise c s = s.setStatus (statusOf c) := rfl

/-- No condition leaves `READY`. -/
@[simp] theorem statusOf_ne_ready (c : Condition) : statusOf c ≠ .ready := by cases c <;> simp [statusOf]

/-- No condition leaves `HALTED`: that is the end of a completed step (R121). -/
@[simp] theorem statusOf_ne_halted (c : Condition) : statusOf c ≠ .halted := by cases c <;> simp [statusOf]

@[simp] theorem statusOf_eq_malformed (c : Condition) :
    statusOf c = .malformedOperand ↔ c = .malformedOperand := by cases c <;> simp [statusOf]

end Sys2Proof.Machine
end

