-- ==== Sys2Proof/Laws/Registers.lean ====
section
/-! SUPPORT. The register file: what a read returns after a write, for the 16-bit and the 8-bit access path
(R11 to R13), and the byte order helpers. -/

namespace Sys2Proof

/-- The value of a word from its two bytes (R47). -/
theorem toNat_wordOf (lo hi : Byte) : (wordOf lo hi).toNat = hi.toNat * 256 + lo.toNat := by
  have h : (wordOf lo hi).toNat = hi.toNat <<< 8 ||| lo.toNat := BitVec.toNat_append hi lo
  have := lo.isLt
  rw [h, ← Nat.shiftLeft_add_eq_or_of_lt (by omega), Nat.shiftLeft_eq]

theorem toNat_loByte (v : Word) : (loByte v).toNat = v.toNat % 256 := by
  simp [loByte, BitVec.extractLsb'_toNat]

theorem toNat_hiByte (v : Word) : (hiByte v).toNat = v.toNat / 256 := by
  have := v.isLt
  simp [hiByte, BitVec.extractLsb'_toNat, Nat.shiftRight_eq_div_pow]
  omega

@[simp] theorem loByte_wordOf (lo hi : Byte) : loByte (wordOf lo hi) = lo := by
  apply BitVec.eq_of_toNat_eq
  have := lo.isLt
  rw [toNat_loByte, toNat_wordOf]
  omega

@[simp] theorem hiByte_wordOf (lo hi : Byte) : hiByte (wordOf lo hi) = hi := by
  apply BitVec.eq_of_toNat_eq
  have := lo.isLt
  rw [toNat_hiByte, toNat_wordOf]
  omega

@[simp] theorem wordOf_loByte_hiByte (v : Word) : wordOf (loByte v) (hiByte v) = v := by
  apply BitVec.eq_of_toNat_eq
  rw [toNat_wordOf, toNat_loByte, toNat_hiByte]
  omega

namespace Machine

/-- A read after a write of the same register gives the value written (R13). -/
@[simp] theorem get_set_self (rf : RegFile) (n : Reg) (v : Word) : (rf.set n v).get n = v := by cases n <;> rfl

/-- A write leaves every other register alone (R13). -/
theorem get_set_ne (rf : RegFile) {n k : Reg} (v : Word) (h : k ≠ n) : (rf.set n v).get k = rf.get k := by
  cases n <;> cases k <;> first | rfl | exact absurd rfl h

theorem get_set (rf : RegFile) (n k : Reg) (v : Word) :
    (rf.set n v).get k = if k = n then v else rf.get k := by
  split
  · subst k; exact get_set_self rf n v
  · exact get_set_ne rf v ‹_›

/-- A second write of one register replaces the first. -/
@[simp] theorem set_set_self (rf : RegFile) (n : Reg) (v w : Word) : (rf.set n v).set n w = rf.set n w := by
  cases n <;> rfl

/-- Writing back what a register holds changes nothing. -/
@[simp] theorem set_get_self (rf : RegFile) (n : Reg) : rf.set n (rf.get n) = rf := by cases n <;> rfl

/-- Writes of two registers commute. -/
theorem set_comm (rf : RegFile) {n k : Reg} (v w : Word) (h : k ≠ n) :
    (rf.set n v).set k w = (rf.set k w).set n v := by
  cases n <;> cases k <;> first | rfl | exact absurd rfl h

theorem setReg_reg (s : State) (n k : Reg) (v : Word) :
    (s.setReg n v).reg k = if k = n then v else s.reg k := get_set s.regs n k v

@[simp] theorem setReg_reg_self (s : State) (n : Reg) (v : Word) : (s.setReg n v).reg n = v :=
  get_set_self s.regs n v

theorem setReg_reg_ne (s : State) {n k : Reg} (v : Word) (h : k ≠ n) : (s.setReg n v).reg k = s.reg k :=
  get_set_ne s.regs v h

/-- Writing back what a register holds changes nothing. -/
@[simp] theorem setReg_same (s : State) (n : Reg) : s.setReg n (s.reg n) = s := by
  simp [State.setReg, State.reg]

/-- An 8-bit read after an 8-bit write (R12). -/
theorem get8_set8 (rf : RegFile) (n k : Reg8) (v : Byte) :
    (rf.set8 n v).get8 k = if k = n then v else rf.get8 k := by
  cases n <;> cases k <;>
    simp [RegFile.set8, RegFile.get8, parentOf, isHighByte, get_set_ne]

/-- An 8-bit write writes the parent register alone (R12). -/
theorem get_set8_ne (rf : RegFile) {n : Reg8} {k : Reg} (v : Byte) (h : k ≠ parentOf n) :
    (rf.set8 n v).get k = rf.get k := get_set_ne rf _ h

theorem setReg8_reg_ne (s : State) {n : Reg8} {k : Reg} (v : Byte) (h : k ≠ parentOf n) :
    (s.setReg8 n v).reg k = s.reg k := get_set8_ne s.regs v h

/-- A 16-bit write of a register that is no parent leaves every sub-register alone. -/
theorem get8_set_ne (rf : RegFile) {n : Reg} (k : Reg8) (v : Word) (h : parentOf k ≠ n) :
    (rf.set n v).get8 k = rf.get8 k := by simp [RegFile.get8, get_set_ne rf v h]

theorem setReg_reg8_ne (s : State) {n : Reg} (k : Reg8) (v : Word) (h : parentOf k ≠ n) :
    (s.setReg n v).reg8 k = s.reg8 k := get8_set_ne s.regs k v h

/-- After RESET every sub-register is 0x00 (R25). -/
@[simp] theorem resetWith_reg8 (m : Memory) (n : Reg8) : (State.resetWith m).reg8 n = 0x00 := by
  have lo : loByte 0x0000 = 0x00 := by decide
  have hi : hiByte 0x0000 = 0x00 := by decide
  have h : ∀ k, (State.resetWith m).regs.get k = 0x0000 := resetWith_reg m
  simp only [State.reg8, RegFile.get8, h]
  split
  · exact hi
  · exact lo

/-- The parents of the sub-registers are the four general registers (R11). -/
theorem parentOf_general (n : Reg8) : parentOf n ∈ [Reg.ax, .bx, .cx, .dx] := by cases n <;> simp [parentOf]

/-- No sub-register lies in a segment register, `IP` or `FLAGS`, nor in a pointer or index register (R11, R15). -/
@[simp] theorem parentOf_ne (n : Reg8) :
    parentOf n ≠ .ip ∧ parentOf n ≠ .flags ∧ parentOf n ≠ .cs ∧ parentOf n ≠ .ds ∧ parentOf n ≠ .es ∧
      parentOf n ≠ .ss := by cases n <;> simp [parentOf]

/-- No code names a segment register, `IP` or `FLAGS` (R15). -/
@[simp] theorem regOf_ne (n : Reg16) :
    regOf n ≠ .ip ∧ regOf n ≠ .flags ∧ regOf n ≠ .cs ∧ regOf n ≠ .ds ∧ regOf n ≠ .es ∧ regOf n ≠ .ss := by
  cases n <;> simp [regOf]

end Machine
end Sys2Proof
end

