-- ==== Sys2Proof/Laws/Decode.lean ====
section
/-! SUPPORT. The decoder and the encoder: the code tables are inverse to each other, the fields of a mode byte are
what it was made of, and what the decoder does with the bytes it fetches. -/

namespace Sys2Proof

@[simp] theorem reg8_ofCode_code (r : Reg8) : Reg8.ofCode r.code = r := by cases r <;> rfl
@[simp] theorem reg16_ofCode_code (r : Reg16) : Reg16.ofCode r.code = r := by cases r <;> rfl
@[simp] theorem base_ofCode_code (b : BaseExpr) : BaseExpr.ofCode b.code = b := by cases b <;> rfl
@[simp] theorem reg8_code_ofCode (c : BitVec 3) : (Reg8.ofCode c).code = c := by revert c; decide
@[simp] theorem reg16_code_ofCode (c : BitVec 3) : (Reg16.ofCode c).code = c := by revert c; decide
@[simp] theorem base_code_ofCode (c : BitVec 3) : (BaseExpr.ofCode c).code = c := by revert c; decide

/-- Only `BP` has the code 110, the code of the direct address (R67, R95). -/
theorem base_code_eq_110 (b : BaseExpr) : b.code = 0b110#3 ↔ b = .bp := by cases b <;> decide

theorem base_ofCode_eq_bp (c : BitVec 3) : BaseExpr.ofCode c = .bp ↔ c = 0b110#3 := by revert c; decide

/-- The mode byte of three fields (R61). -/
def modeByte (mod : BitVec 2) (reg rm : BitVec 3) : Byte := mod ++ reg ++ rm

@[simp] theorem modField_modeByte (mod : BitVec 2) (reg rm : BitVec 3) : modField (modeByte mod reg rm) = mod := by
  revert mod reg rm; decide
@[simp] theorem regField_modeByte (mod : BitVec 2) (reg rm : BitVec 3) : regField (modeByte mod reg rm) = reg := by
  revert mod reg rm; decide
@[simp] theorem rmField_modeByte (mod : BitVec 2) (reg rm : BitVec 3) : rmField (modeByte mod reg rm) = rm := by
  revert mod reg rm; decide

/-- A mode byte is its three fields. -/
theorem modeByte_fields (b : Byte) : modeByte (modField b) (regField b) (rmField b) = b := by
  revert b; decide

/-- The displacement bytes are as many as R67 says. -/
theorem dispBytes_length {ρ : Type} (code : ρ → BitVec 3) (x : RegMem ρ) (h : x.wellFormed = true) :
    x.dispBytes.length = dispSizeOf x.mod (x.rm code) := by
  cases x with
  | reg r => rfl
  | mem m =>
    cases m with
    | base b =>
      have : b.code ≠ 0b110#3 := by
        rw [Ne, base_code_eq_110]; simpa [RegMem.wellFormed, MemOperand.wellFormed] using h
      simp [RegMem.dispBytes, MemOperand.dispBytes, RegMem.mod, MemOperand.mod, RegMem.rm, MemOperand.rm,
        dispSizeOf, this]
    | _ => rfl

/-- Decoding reads at most the four bytes of the longest instruction (R79, R80). -/
theorem decodeWith_congr {f g : Nat → Except Condition Byte} (h : ∀ k, k < 4 → f k = g k) :
    decodeWith f = decodeWith g := by
  have hrow : ∀ b0 row, lookupRow b0 = some row → ∀ w, row.immSize w = 0 := by
    intro b0 row hb w
    have : row ∈ opcodeTable := List.mem_of_find?_eq_some hb
    simp only [opcodeTable, List.mem_cons, List.not_mem_nil, or_false] at this
    rcases this with rfl | rfl <;> simp [Descriptor.immSize, movRow, hltRow]
  have hrm : ∀ mod rm, decodeRm f mod rm = decodeRm g mod rm := by
    intro mod rm
    simp only [decodeRm, fetchWordAt, h 2 (by omega), h 3 (by omega)]
  cases h0 : g 0 with
  | error c => simp only [decodeWith, h 0 (by omega), h0]
  | ok b0 =>
    cases hb : lookupRow b0 with
    | none => simp only [decodeWith, h 0 (by omega), h0, hb]
    | some row =>
      simp only [decodeWith, h 0 (by omega), h0, hb, decodeMode, h 1 (by omega), hrm, hrow b0 row hb, fetchBytesAt]

/-- The row of each MOV first byte. -/
theorem lookupRow_mov (d w : Bool) :
    lookupRow (0b100010#6 ++ BitVec.ofBool d ++ BitVec.ofBool w) = some movRow ∧
    dBit (0b100010#6 ++ BitVec.ofBool d ++ BitVec.ofBool w) = d ∧
    wBit (0b100010#6 ++ BitVec.ofBool d ++ BitVec.ofBool w) = w := by
  cases d <;> cases w <;> decide

/-- The first bytes that select the MOV row are the four of R65, and their other bits are D and W. -/
theorem lookupRow_eq_mov (b0 : Byte) (h : lookupRow b0 = some movRow) :
    0b100010#6 ++ BitVec.ofBool (dBit b0) ++ BitVec.ofBool (wBit b0) = b0 := by
  revert b0; decide

/-- The one first byte that selects the HLT row (R65, R76). -/
theorem lookupRow_eq_hlt (b0 : Byte) (h : lookupRow b0 = some hltRow) : b0 = 0xF4#8 := by
  revert b0; decide

/-- Every other first byte selects no row (R66, R76). -/
theorem lookupRow_eq_none (b0 : Byte) (h : b0 ∉ [0x88#8, 0x89#8, 0x8A#8, 0x8B#8, 0xF4#8]) : lookupRow b0 = none := by
  revert b0; decide

/-- A lookup finds one of the two rows or none (R65). -/
theorem lookupRow_cases (b0 : Byte) :
    lookupRow b0 = none ∨ lookupRow b0 = some movRow ∨ lookupRow b0 = some hltRow := by
  revert b0; decide

/-- The decoder on a MOV first byte (R79). -/
theorem decodeWith_mov {f : Nat → Except Condition Byte} {b0 : Byte} (h0 : f 0 = .ok b0)
    (hrow : lookupRow b0 = some movRow) :
    decodeWith f =
      match f 1 with
      | .error c => .error c
      | .ok b1 =>
        match decodeRm f (modField b1) (rmField b1) with
        | .error c => .error c
        | .ok rm => .ok (movOf (dBit b0) (wBit b0) (regField b1) rm) := by
  simp only [decodeWith, h0, hrow]
  rfl

/-- The decoder on the HLT byte (R79). -/
theorem decodeWith_hlt {f : Nat → Except Condition Byte} (h0 : f 0 = .ok 0xF4#8) : decodeWith f = .ok .hlt := by
  have : lookupRow 0xF4#8 = some hltRow := by decide
  simp only [decodeWith, h0, this]
  rfl

/-- The decoder on any other first byte: nothing after it is looked at (R66, R122). -/
theorem decodeWith_unsupported {f : Nat → Except Condition Byte} {b0 : Byte} (h0 : f 0 = .ok b0)
    (hrow : lookupRow b0 = none) : decodeWith f = .error .unsupportedOpcode := by
  simp only [decodeWith, h0, hrow]

/-- A well-formed R/M operand over register codes is read back from its fields and displacement bytes. -/
theorem decodeRm_of_bytes {f : Nat → Except Condition Byte} (x : RegMem (BitVec 3)) (h : x.wellFormed = true)
    (hf : ∀ (j : Nat) (hj : j < x.dispBytes.length), f (2 + j) = .ok x.dispBytes[j]) :
    decodeRm f x.mod (x.rm id) = .ok x := by
  cases x with
  | reg r => rfl
  | mem m =>
    cases m with
    | direct a =>
      have h0 : f 2 = .ok (loByte a) := hf 0 (by simp [RegMem.dispBytes, MemOperand.dispBytes])
      have h1 : f 3 = .ok (hiByte a) := hf 1 (by simp [RegMem.dispBytes, MemOperand.dispBytes])
      simp [decodeRm, RegMem.mod, RegMem.rm, MemOperand.mod, MemOperand.rm, fetchWordAt, h0, h1]
    | base b =>
      have : b.code ≠ 0b110#3 := by
        rw [Ne, base_code_eq_110]; simpa [RegMem.wellFormed, MemOperand.wellFormed] using h
      simp [decodeRm, RegMem.mod, RegMem.rm, MemOperand.mod, MemOperand.rm, this]
    | disp8 b d =>
      have h0 : f 2 = .ok d := hf 0 (by simp [RegMem.dispBytes, MemOperand.dispBytes])
      simp [decodeRm, RegMem.mod, RegMem.rm, MemOperand.mod, MemOperand.rm, h0]
    | disp16 b d =>
      have h0 : f 2 = .ok (loByte d) := hf 0 (by simp [RegMem.dispBytes, MemOperand.dispBytes])
      have h1 : f 3 = .ok (hiByte d) := hf 1 (by simp [RegMem.dispBytes, MemOperand.dispBytes])
      simp [decodeRm, RegMem.mod, RegMem.rm, MemOperand.mod, MemOperand.rm, fetchWordAt, h0, h1]

/-- An R/M operand the decoder reads is well-formed, has the fields it was read from, and its displacement bytes are
those fetched. -/
theorem decodeRm_ok {f : Nat → Except Condition Byte} {mod : BitVec 2} {rm : BitVec 3} {x : RegMem (BitVec 3)}
    (h : decodeRm f mod rm = .ok x) :
    x.wellFormed = true ∧ x.mod = mod ∧ x.rm id = rm ∧
      ∀ (j : Nat) (hj : j < x.dispBytes.length), f (2 + j) = .ok x.dispBytes[j] := by
  have hword : ∀ {w : Word}, fetchWordAt f 2 = .ok w → f 2 = .ok (loByte w) ∧ f 3 = .ok (hiByte w) := by
    intro w hw
    simp only [fetchWordAt] at hw
    cases h2 : f 2 with
    | error c => simp [h2] at hw
    | ok lo =>
      cases h3 : f 3 with
      | error c => simp [h2, h3] at hw
      | ok hi =>
        simp only [h2, h3, Except.ok.injEq] at hw
        subst hw
        simp
  have hmods : ∀ v : BitVec 2, v = 0b11#2 ∨ v = 0b00#2 ∨ v = 0b01#2 ∨ v = 0b10#2 := by decide
  rcases hmods mod with rfl | rfl | rfl | rfl
  · simp only [decodeRm, if_true, Except.ok.injEq] at h
    subst h
    exact ⟨rfl, rfl, rfl, by simp [RegMem.dispBytes]⟩
  · by_cases hrm : rm = 0b110#3
    · subst hrm
      cases hw : fetchWordAt f 2 with
      | error c => simp [decodeRm, hw] at h
      | ok a =>
        simp [decodeRm, hw] at h
        subst h
        refine ⟨rfl, rfl, rfl, fun j hj => ?_⟩
        simp only [RegMem.dispBytes, MemOperand.dispBytes, List.length_cons, List.length_nil] at hj
        match j, hj with
        | 0, _ => exact (hword hw).1
        | 1, _ => exact (hword hw).2
    · simp [decodeRm, hrm] at h
      subst h
      refine ⟨?_, rfl, by simp [RegMem.rm, MemOperand.rm], by simp [RegMem.dispBytes, MemOperand.dispBytes]⟩
      simpa [RegMem.wellFormed, MemOperand.wellFormed, base_ofCode_eq_bp] using hrm
  · cases hw : f 2 with
    | error c => simp [decodeRm, hw] at h
    | ok d =>
      simp [decodeRm, hw] at h
      subst h
      refine ⟨rfl, rfl, by simp [RegMem.rm, MemOperand.rm], fun j hj => ?_⟩
      simp only [RegMem.dispBytes, MemOperand.dispBytes, List.length_cons, List.length_nil] at hj
      match j, hj with
      | 0, _ => exact hw
  · cases hw : fetchWordAt f 2 with
    | error c => simp [decodeRm, hw] at h
    | ok d =>
      simp [decodeRm, hw] at h
      subst h
      refine ⟨rfl, rfl, by simp [RegMem.rm, MemOperand.rm], fun j hj => ?_⟩
      simp only [RegMem.dispBytes, MemOperand.dispBytes, List.length_cons, List.length_nil] at hj
      match j, hj with
      | 0, _ => exact (hword hw).1
      | 1, _ => exact (hword hw).2

/-- The R/M operand and the REG code of an instruction, over register codes. -/
def Instr.fields : Instr → Option (BitVec 3 × RegMem (BitVec 3))
  | .movRm8R8 dst src => some (src.code, dst.map Reg8.code)
  | .movRm16R16 dst src => some (src.code, dst.map Reg16.code)
  | .movR8Rm8 dst src => some (dst.code, src.map Reg8.code)
  | .movR16Rm16 dst src => some (dst.code, src.map Reg16.code)
  | .hlt => none

@[simp] theorem map_map {ρ σ τ : Type} (f : ρ → σ) (g : σ → τ) (x : RegMem ρ) :
    (x.map f).map g = x.map (g ∘ f) := by cases x <;> rfl
@[simp] theorem map_id {ρ : Type} (x : RegMem ρ) : x.map (fun r => r) = x := by cases x <;> rfl
@[simp] theorem map_wellFormed {ρ σ : Type} (f : ρ → σ) (x : RegMem ρ) :
    (x.map f).wellFormed = x.wellFormed := by cases x <;> rfl
@[simp] theorem map_mod {ρ σ : Type} (f : ρ → σ) (x : RegMem ρ) : (x.map f).mod = x.mod := by cases x <;> rfl
@[simp] theorem map_rm {ρ σ : Type} (f : ρ → σ) (g : σ → BitVec 3) (x : RegMem ρ) :
    (x.map f).rm g = x.rm (g ∘ f) := by cases x <;> rfl
@[simp] theorem map_dispBytes {ρ σ : Type} (f : ρ → σ) (x : RegMem ρ) :
    (x.map f).dispBytes = x.dispBytes := by cases x <;> rfl

theorem ofCode8_comp_code : Reg8.ofCode ∘ Reg8.code = fun r => r := funext reg8_ofCode_code
theorem ofCode16_comp_code : Reg16.ofCode ∘ Reg16.code = fun r => r := funext reg16_ofCode_code
theorem code8_comp_ofCode : Reg8.code ∘ Reg8.ofCode = id := funext reg8_code_ofCode
theorem code16_comp_ofCode : Reg16.code ∘ Reg16.ofCode = id := funext reg16_code_ofCode

/-- A MOV is its D and W bits, its REG code and its R/M operand (R110). -/
theorem movOf_fields (i : Instr) (reg : BitVec 3) (x : RegMem (BitVec 3)) (h : i.fields = some (reg, x)) :
    movOf i.d i.w reg x = i := by
  cases i <;> simp only [Instr.fields, Option.some.injEq, Prod.mk.injEq, reduceCtorEq] at h
  all_goals
    obtain ⟨rfl, rfl⟩ := h
    simp [movOf, Instr.d, Instr.w, ofCode8_comp_code, ofCode16_comp_code]

/-- The encoding of a MOV, by its fields (R61). -/
theorem encode_mov (i : Instr) (reg : BitVec 3) (x : RegMem (BitVec 3)) (h : i.fields = some (reg, x)) :
    encode i = (0b100010#6 ++ BitVec.ofBool i.d ++ BitVec.ofBool i.w) :: modeByte x.mod reg (x.rm id) ::
      x.dispBytes := by
  cases i <;> simp only [Instr.fields, Option.some.injEq, Prod.mk.injEq, reduceCtorEq] at h
  all_goals
    obtain ⟨rfl, rfl⟩ := h
    simp [encode, Instr.opcodeByte, Instr.modeBytes, Instr.mode, Instr.dispBytes, modeByte]

theorem encode_hlt : encode .hlt = [0xF4#8] := rfl

/-- Every instruction but HLT has REG and R/M fields. -/
theorem fields_or_hlt (i : Instr) : i = .hlt ∨ ∃ reg x, i.fields = some (reg, x) := by
  cases i <;> simp [Instr.fields]

theorem fields_wellFormed (i : Instr) (reg : BitVec 3) (x : RegMem (BitVec 3)) (h : i.fields = some (reg, x)) :
    i.wellFormed = x.wellFormed := by
  cases i <;> simp only [Instr.fields, Option.some.injEq, Prod.mk.injEq, reduceCtorEq] at h
  all_goals
    obtain ⟨rfl, rfl⟩ := h
    simp [Instr.wellFormed]

/-- The fields, D and W of a MOV put together. -/
theorem fields_movOf (d w : Bool) (reg : BitVec 3) (x : RegMem (BitVec 3)) :
    (movOf d w reg x).fields = some (reg, x) ∧ (movOf d w reg x).d = d ∧ (movOf d w reg x).w = w := by
  have hid : x.map id = x := by cases x <;> rfl
  cases d <;> cases w <;>
    simp [movOf, Instr.fields, Instr.d, Instr.w, code8_comp_ofCode, code16_comp_ofCode, hid]

/-- A fetch that gives the bytes of a well-formed instruction decodes to it (R79). -/
theorem decodeWith_of_bytes {f : Nat → Except Condition Byte} {i : Instr} (h : i.wellFormed = true)
    (hf : ∀ (k : Nat) (hk : k < (encode i).length), f k = .ok (encode i)[k]) : decodeWith f = .ok i := by
  rcases fields_or_hlt i with rfl | ⟨reg, x, hx⟩
  · exact decodeWith_hlt (hf 0 (by simp [encode_hlt]))
  · have he := encode_mov i reg x hx
    have h0 := hf 0 (by simp [he])
    have h1 := hf 1 (by simp [he])
    simp only [he, List.getElem_cons_zero, List.getElem_cons_succ] at h0 h1
    obtain ⟨hrow, hd, hw⟩ := lookupRow_mov i.d i.w
    rw [decodeWith_mov h0 hrow, h1]
    simp only [modField_modeByte, rmField_modeByte, regField_modeByte, hd, hw]
    rw [decodeRm_of_bytes x (by rw [← fields_wellFormed i reg x hx]; exact h) ?_]
    · simp only [movOf_fields i reg x hx]
    · intro j hj
      have := hf (2 + j) (by simp [he]; omega)
      simpa [he, show 2 + j = j + 1 + 1 by omega] using this

/-- What the decoder reads is well-formed, and each byte of its encoding is the byte fetched at that index. -/
theorem decodeWith_ok {f : Nat → Except Condition Byte} {i : Instr} (h : decodeWith f = .ok i) :
    i.wellFormed = true ∧ ∀ (k : Nat) (hk : k < (encode i).length), f k = .ok (encode i)[k] := by
  cases h0 : f 0 with
  | error c => simp [decodeWith, h0] at h
  | ok b0 =>
    rcases lookupRow_cases b0 with hrow | hrow | hrow
    · simp [decodeWith_unsupported h0 hrow] at h
    · rw [decodeWith_mov h0 hrow] at h
      cases h1 : f 1 with
      | error c => simp [h1] at h
      | ok b1 =>
        cases hr : decodeRm f (modField b1) (rmField b1) with
        | error c => simp [h1, hr] at h
        | ok x =>
          simp only [h1, hr, Except.ok.injEq] at h
          subst h
          obtain ⟨hwf, hmod, hrm, hbytes⟩ := decodeRm_ok hr
          obtain ⟨hfields, hd, hw⟩ := fields_movOf (dBit b0) (wBit b0) (regField b1) x
          refine ⟨by rw [fields_wellFormed _ _ _ hfields]; exact hwf, fun k hk => ?_⟩
          have he := encode_mov _ _ _ hfields
          rw [hd, hw, lookupRow_eq_mov b0 hrow, hmod, hrm, modeByte_fields] at he
          simp only [he, List.length_cons] at hk ⊢
          match k, hk with
          | 0, _ => simpa using h0
          | 1, _ => simpa using h1
          | j + 2, hk =>
            have := hbytes j (by omega)
            simpa [show 2 + j = j + 2 by omega] using this
    · obtain rfl := lookupRow_eq_hlt b0 hrow
      rw [decodeWith_hlt h0, Except.ok.injEq] at h
      subst h
      refine ⟨rfl, fun k hk => ?_⟩
      simp only [encode_hlt, List.length_singleton] at hk
      obtain rfl : k = 0 := by omega
      simpa [encode_hlt] using h0

/-- The first byte of a well-formed instruction whose fetch fails ends the decoding with that fetch's condition
(R79, R126). -/
theorem decodeWith_of_failed_fetch {f : Nat → Except Condition Byte} {i : Instr} (h : i.wellFormed = true) {k : Nat}
    (hk : k < (encode i).length) (hf : ∀ (j : Nat) (hj : j < (encode i).length), j < k → f j = .ok (encode i)[j])
    {c : Condition} (hc : f k = .error c) : decodeWith f = .error c := by
  rcases fields_or_hlt i with rfl | ⟨reg, x, hx⟩
  · simp only [encode_hlt, List.length_singleton] at hk
    obtain rfl : k = 0 := by omega
    simp [decodeWith, hc]
  · have he := encode_mov i reg x hx
    obtain ⟨hrow, hd, hw⟩ := lookupRow_mov i.d i.w
    match k, hk, hf, hc with
    | 0, _, _, hc => simp [decodeWith, hc]
    | 1, _, hf, hc =>
      have h0 := hf 0 (by simp [he]) (by omega)
      simp only [he, List.getElem_cons_zero] at h0
      rw [decodeWith_mov h0 hrow, hc]
    | j + 2, hk, hf, hc =>
      have h0 := hf 0 (by simp [he]) (by omega)
      have h1 := hf 1 (by simp [he]) (by omega)
      simp only [he, List.getElem_cons_zero, List.getElem_cons_succ] at h0 h1
      rw [decodeWith_mov h0 hrow, h1]
      simp only [modField_modeByte, rmField_modeByte]
      have hx' : x.wellFormed = true := by rw [← fields_wellFormed i reg x hx]; exact h
      have hj : j < x.dispBytes.length := by simp [he] at hk; omega
      have hlow : 0 < j → ∀ hp : 0 < x.dispBytes.length, f 2 = .ok x.dispBytes[0] := by
        intro hpos hp
        have := hf 2 (by simp [he]; omega) (by omega)
        simpa [he] using this
      rw [show decodeRm f x.mod (x.rm id) = .error c from ?_]
      cases x with
      | reg r => simp [RegMem.dispBytes] at hj
      | mem m =>
        cases m with
        | base b => simp [RegMem.dispBytes, MemOperand.dispBytes] at hj
        | disp8 b d =>
          obtain rfl : j = 0 := by simp [RegMem.dispBytes, MemOperand.dispBytes] at hj; omega
          simp [decodeRm, RegMem.mod, MemOperand.mod, hc]
        | direct a =>
          have hj' : j = 0 ∨ j = 1 := by simp [RegMem.dispBytes, MemOperand.dispBytes] at hj; omega
          rcases hj' with rfl | rfl
          · simp [decodeRm, RegMem.mod, RegMem.rm, MemOperand.mod, MemOperand.rm, fetchWordAt, hc]
          · have h2 := hlow (by omega) (by simp [RegMem.dispBytes, MemOperand.dispBytes])
            simp [decodeRm, RegMem.mod, RegMem.rm, MemOperand.mod, MemOperand.rm, fetchWordAt, hc, h2]
        | disp16 b d =>
          have hj' : j = 0 ∨ j = 1 := by simp [RegMem.dispBytes, MemOperand.dispBytes] at hj; omega
          rcases hj' with rfl | rfl
          · simp [decodeRm, RegMem.mod, MemOperand.mod, fetchWordAt, hc]
          · have h2 := hlow (by omega) (by simp [RegMem.dispBytes, MemOperand.dispBytes])
            simp [decodeRm, RegMem.mod, MemOperand.mod, fetchWordAt, hc, h2]

/-- The R/M operand fails to decode only where one of its displacement bytes fails to be fetched (R77). -/
theorem decodeRm_error {f : Nat → Except Condition Byte} {mod : BitVec 2} {rm : BitVec 3} {c : Condition}
    (h : decodeRm f mod rm = .error c) : f 2 = .error c ∨ f 3 = .error c := by
  simp only [decodeRm, fetchWordAt] at h
  cases h2 : f 2 <;> cases h3 : f 3 <;> simp only [h2, h3] at h <;> (repeat' split at h) <;> simp_all

/-- The decoder's own conditions are `UnsupportedOpcode` and those of the fetch: `MalformedOperand` never arises of
itself (R77, R125). -/
theorem decodeWith_error {f : Nat → Except Condition Byte} {c : Condition} (h : decodeWith f = .error c) :
    c = .unsupportedOpcode ∨ ∃ k, f k = .error c := by
  cases h0 : f 0 with
  | error e => exact .inr ⟨0, by simpa [decodeWith, h0] using h⟩
  | ok b0 =>
    rcases lookupRow_cases b0 with hrow | hrow | hrow
    · left; simpa [decodeWith_unsupported h0 hrow, eq_comm] using h
    · rw [decodeWith_mov h0 hrow] at h
      cases h1 : f 1 with
      | error e => exact .inr ⟨1, by simpa [h1] using h⟩
      | ok b1 =>
        right
        cases hr : decodeRm f (modField b1) (rmField b1) with
        | ok x => simp [h1, hr] at h
        | error e =>
          simp only [h1, hr, Except.error.injEq] at h
          subst h
          rcases decodeRm_error hr with h2 | h3
          · exact ⟨2, h2⟩
          · exact ⟨3, h3⟩
    · obtain rfl := lookupRow_eq_hlt b0 hrow
      simp [decodeWith_hlt h0] at h

end Sys2Proof
end

