-- ==== Sys2Proof/Laws/Memory.lean ====
section
/-! SUPPORT. The memory list: read after write, the canonical form, and that equal arrays are equal lists
(R40, R45 to R48, R58). -/

namespace Sys2Proof.Machine

@[simp] theorem read_nil (a : Nat) : Memory.read [] a = Config.unlistedByte := rfl

@[simp] theorem read_cons (k : Nat) (b : Byte) (rest : Memory) (a : Nat) :
    Memory.read ((k, b) :: rest) a = if k = a then b else Memory.read rest a := rfl

theorem wfFrom_cons {least k : Nat} {b : Byte} {rest : Memory} :
    Memory.wfFrom least ((k, b) :: rest) = true ↔
      least ≤ k ∧ k < Config.memSize ∧ b ≠ Config.unlistedByte ∧ Memory.wfFrom (k + 1) rest = true := by
  simp [Memory.wfFrom, and_assoc]

/-- A bound below the first address may be lowered. -/
theorem wfFrom_mono {m : Memory} {lo lo' : Nat} (h : lo' ≤ lo) (hm : Memory.wfFrom lo m = true) :
    Memory.wfFrom lo' m = true := by
  cases m with
  | nil => rfl
  | cons c rest => obtain ⟨k, b⟩ := c; rw [wfFrom_cons] at *; exact ⟨by omega, hm.2⟩

/-- An address below the least one is not listed. -/
theorem read_below {m : Memory} {lo a : Nat} (hm : Memory.wfFrom lo m = true) (h : a < lo) :
    m.read a = Config.unlistedByte := by
  induction m generalizing lo with
  | nil => rfl
  | cons c rest ih =>
    obtain ⟨k, b⟩ := c
    obtain ⟨h1, -, -, h4⟩ := wfFrom_cons.mp hm
    rw [read_cons, if_neg (by omega)]
    exact ih h4 (by omega)

/-- An address past the array is not listed (R44). -/
theorem read_past {m : Memory} {lo a : Nat} (hm : Memory.wfFrom lo m = true) (h : Config.memSize ≤ a) :
    m.read a = Config.unlistedByte := by
  induction m generalizing lo with
  | nil => rfl
  | cons c rest ih =>
    obtain ⟨k, b⟩ := c
    obtain ⟨-, h2, -, h4⟩ := wfFrom_cons.mp hm
    rw [read_cons, if_neg (by omega)]
    exact ih h4

/-- A write leaves every other address alone (R46), on any list. -/
theorem read_write_ne (m : Memory) {a k : Nat} (v : Byte) (h : k ≠ a) :
    (m.write a v).read k = m.read k := by
  induction m with
  | nil => unfold Memory.write; split <;> simp [Ne.symm h]
  | cons c rest ih =>
    obtain ⟨j, b⟩ := c
    unfold Memory.write
    split
    · split <;> simp [Ne.symm h]
    · split
      · subst j; split <;> simp [Ne.symm h]
      · simp [ih]

theorem read_write_self_from {m : Memory} {lo a : Nat} (v : Byte) (hm : Memory.wfFrom lo m = true) :
    (m.write a v).read a = v := by
  induction m generalizing lo with
  | nil => unfold Memory.write; split <;> simp_all
  | cons c rest ih =>
    obtain ⟨j, b⟩ := c
    obtain ⟨-, -, -, h4⟩ := wfFrom_cons.mp hm
    unfold Memory.write
    split
    · rename_i hlt
      split
      · rename_i hv
        rw [read_cons, if_neg (by omega), read_below h4 (by omega), hv]
      · simp
    · split
      · subst j
        split
        · rename_i hv; rw [read_below h4 (by omega), hv]
        · simp
      · rename_i hne
        rw [read_cons, if_neg (Ne.symm hne)]
        exact ih h4

/-- A read after a write of the same address gives the byte written (R40, R46). -/
theorem read_write_self {m : Memory} (a : Nat) (v : Byte) (hm : m.wf = true) : (m.write a v).read a = v :=
  read_write_self_from v hm

theorem wfFrom_write {m : Memory} {lo a : Nat} (v : Byte) (hm : Memory.wfFrom lo m = true) (hlo : lo ≤ a)
    (ha : a < Config.memSize) : Memory.wfFrom lo (m.write a v) = true := by
  induction m generalizing lo with
  | nil =>
    unfold Memory.write
    split
    · rfl
    · rw [wfFrom_cons]; exact ⟨hlo, ha, ‹_›, rfl⟩
  | cons c rest ih =>
    obtain ⟨j, b⟩ := c
    obtain ⟨h1, h2, h3, h4⟩ := wfFrom_cons.mp hm
    unfold Memory.write
    split
    · split
      · exact hm
      · rw [wfFrom_cons]
        exact ⟨hlo, ha, ‹_›, wfFrom_cons.mpr ⟨by omega, h2, h3, h4⟩⟩
    · split
      · subst j
        split
        · exact wfFrom_mono (by omega) h4
        · exact wfFrom_cons.mpr ⟨h1, h2, ‹_›, h4⟩
      · exact wfFrom_cons.mpr ⟨h1, h2, h3, ih h4 (by omega)⟩

/-- A write inside the array keeps the canonical form. -/
theorem wf_write {m : Memory} {a : Nat} (v : Byte) (hm : m.wf = true) (ha : a < Config.memSize) :
    (m.write a v).wf = true := wfFrom_write v hm (by omega) ha

/-- A word write inside the array keeps the canonical form. -/
theorem wf_write16 {m : Memory} {a : Nat} (v : Word) (hm : m.wf = true) (ha : a + 1 < Config.memSize) :
    (m.write16 a v).wf = true := wf_write _ (wf_write _ hm (by omega)) ha

/-- A word write stores the low byte at the lower address (R48). -/
theorem read_write16_lo {m : Memory} (a : Nat) (v : Word) (hm : m.wf = true) :
    (m.write16 a v).read a = loByte v := by
  rw [Memory.write16, read_write_ne _ _ (by omega), read_write_self _ _ hm]

/-- A word write stores the high byte at the next address (R48). -/
theorem read_write16_hi {m : Memory} {a : Nat} (v : Word) (hm : m.wf = true) (ha : a < Config.memSize) :
    (m.write16 a v).read (a + 1) = hiByte v := read_write_self _ _ (wf_write _ hm ha)

/-- A word write leaves every address but its two alone (R48). -/
theorem read_write16_ne (m : Memory) {a k : Nat} (v : Word) (h : k ≠ a) (h' : k ≠ a + 1) :
    (m.write16 a v).read k = m.read k := by
  rw [Memory.write16, read_write_ne _ _ h', read_write_ne _ _ h]

/-- Two canonical lists that read the same everywhere are one list. -/
theorem ext_wfFrom {m n : Memory} {lo : Nat} (hm : Memory.wfFrom lo m = true) (hn : Memory.wfFrom lo n = true)
    (h : ∀ a, m.read a = n.read a) : m = n := by
  induction m generalizing n lo with
  | nil =>
    cases n with
    | nil => rfl
    | cons c rest =>
      obtain ⟨k, b⟩ := c
      obtain ⟨-, -, h3, -⟩ := wfFrom_cons.mp hn
      exact absurd (by simpa using (h k).symm) h3
  | cons c rest ih =>
    obtain ⟨k, b⟩ := c
    obtain ⟨h1, h2, h3, h4⟩ := wfFrom_cons.mp hm
    cases n with
    | nil => exact absurd (by simpa using h k) h3
    | cons c' rest' =>
      obtain ⟨k', b'⟩ := c'
      obtain ⟨h1', h2', h3', h4'⟩ := wfFrom_cons.mp hn
      have hk : k = k' := by
        rcases Nat.lt_trichotomy k k' with hlt | heq | hgt
        · have := h k
          rw [read_cons, if_pos rfl, read_cons, if_neg (by omega), read_below h4' (by omega)] at this
          exact absurd this h3
        · exact heq
        · have := h k'
          rw [read_cons, if_neg (by omega), read_below h4 (by omega), read_cons, if_pos rfl] at this
          exact absurd this.symm h3'
      subst hk
      have hb : b = b' := by simpa using h k
      subst hb
      congr 1
      refine ih h4 h4' fun a => ?_
      rcases Nat.lt_or_ge a (k + 1) with hlt | hge
      · rw [read_below h4 hlt, read_below h4' hlt]
      · have := h a
        rwa [read_cons, if_neg (by omega), read_cons, if_neg (by omega)] at this

/-- LOAD's copy keeps the canonical form while it stays inside the array (R58). -/
theorem wf_writeAll {m : Memory} {a : Nat} (bs : List Byte) (hm : m.wf = true)
    (ha : a + bs.length ≤ Config.memSize) : (m.writeAll a bs).wf = true := by
  induction bs generalizing m a with
  | nil => exact hm
  | cons b bs ih =>
    simp only [List.length_cons] at ha
    exact ih (wf_write b hm (by omega)) (by omega)

/-- LOAD's copy leaves every byte outside the image alone (R58). -/
theorem read_writeAll_outside (m : Memory) {a k : Nat} (bs : List Byte) (h : k < a ∨ a + bs.length ≤ k) :
    (m.writeAll a bs).read k = m.read k := by
  induction bs generalizing m a with
  | nil => rfl
  | cons b bs ih =>
    simp only [List.length_cons] at h
    rw [Memory.writeAll, ih _ (by omega), read_write_ne _ _ (by omega)]

/-- LOAD's copy puts byte `j` of the image at address `a + j` (R58). -/
theorem read_writeAll_inside {m : Memory} {a j : Nat} (bs : List Byte) (hm : m.wf = true)
    (ha : a + bs.length ≤ Config.memSize) (h : j < bs.length) : (m.writeAll a bs).read (a + j) = bs[j] := by
  induction bs generalizing m a j with
  | nil => simp at h
  | cons b bs ih =>
    simp only [List.length_cons] at ha h
    cases j with
    | zero =>
      rw [Memory.writeAll, read_writeAll_outside _ _ (by omega)]
      exact read_write_self _ _ hm
    | succ j =>
      have := ih (m := m.write a b) (a := a + 1) (j := j) (wf_write b hm (by omega)) (by omega) (by omega)
      rw [Memory.writeAll, show a + (j + 1) = a + 1 + j by omega, this]
      rfl

/-- A byte access inside the array reads the byte there (R45). -/
theorem memRead8_ok (m : Memory) {pa : Nat} (h : pa < Config.memSize) : memRead8 m pa = .ok (m.read pa) :=
  if_neg (by omega)

/-- A byte access outside the array raises `OutOfBounds` (R44, R45). -/
theorem memRead8_error (m : Memory) {pa : Nat} (h : Config.memSize ≤ pa) : memRead8 m pa = .error .outOfBounds :=
  if_pos h

theorem memRead16_ok (m : Memory) {pa : Nat} (h : pa + 1 < Config.memSize) :
    memRead16 m pa = .ok (wordOf (m.read pa) (m.read (pa + 1))) := if_neg (by omega)

theorem memRead16_error (m : Memory) {pa : Nat} (h : Config.memSize ≤ pa + 1) :
    memRead16 m pa = .error .outOfBounds := if_pos h

theorem checkWrite8_ok {pa : Nat} (h : pa < Config.memSize) : checkWrite8 pa = .ok () := if_neg (by omega)

theorem checkWrite8_error {pa : Nat} (h : Config.memSize ≤ pa) : checkWrite8 pa = .error .outOfBounds := if_pos h

theorem checkWrite16_ok {pa : Nat} (h : pa + 1 < Config.memSize) : checkWrite16 pa = .ok () := if_neg (by omega)

theorem checkWrite16_error {pa : Nat} (h : Config.memSize ≤ pa + 1) : checkWrite16 pa = .error .outOfBounds :=
  if_pos h

/-- LOAD of an image that fits (R58). -/
theorem load_ok {bytes : List Byte} (s : State) (h : bytes.length ≤ Config.memSize) :
    s.load bytes = .next { s with mem := s.mem.writeAll Config.imgOrigin bytes,
                                  imgEnd := BitVec.ofNat 21 (Config.imgOrigin + bytes.length) } :=
  if_neg (by simp only [Config.imgOrigin]; omega)

/-- LOAD of an image that does not fit (R58, R129). -/
theorem load_error {bytes : List Byte} (s : State) (h : Config.memSize < bytes.length) :
    s.load bytes = .fault .loadError := if_pos (by simp only [Config.imgOrigin]; omega)

end Sys2Proof.Machine
end

