-- ==== Sys2Proof/Laws/Exec.lean ====
section
/-! SUPPORT. Everything an instruction can do, said once: the commit, the state a destination's write leaves
(`DestWritten`), and the inversion lemma `exec_cases` that later proofs cite. -/

namespace Sys2Proof.Machine

/-- An empty set of flags updates nothing, whatever the new value is (R106). -/
@[simp] theorem flagUpdate_nil (new flags : Word) : flagUpdate [] new flags = flags := by
  have h : flagUpdate [] new flags = (flags &&& BitVec.allOnes 16) ||| (new &&& 0#16) := rfl
  rw [h, BitVec.and_allOnes, BitVec.and_zero, BitVec.or_zero]

/-- No row of the opcode table writes a flag (R65). -/
@[simp] theorem descriptor_flagsWritten (i : Instr) : i.descriptor.flagsWritten = [] := by cases i <;> rfl

@[simp] theorem statusAfter_hlt : statusAfter .hlt = .halted := rfl

/-- A completed step leaves `HALTED` exactly when the instruction is HLT (R90). -/
theorem statusAfter_eq (i : Instr) : statusAfter i = if i = .hlt then .halted else .ready := by cases i <;> rfl

/-- The commit advances `IP`, sets `STATUS` and leaves all else (R17, R90, R107). -/
theorem commit_eq (i : Instr) (new : Word) (s : State) :
    commit i new s = (s.setReg .ip (s.reg .ip + BitVec.ofNat 16 i.length)).setStatus (statusAfter i) := by
  simp [commit]

@[simp] theorem commit_mem (i : Instr) (new : Word) (s : State) : (commit i new s).mem = s.mem := rfl
@[simp] theorem commit_imgEnd (i : Instr) (new : Word) (s : State) : (commit i new s).imgEnd = s.imgEnd := rfl
@[simp] theorem commit_status (i : Instr) (new : Word) (s : State) : (commit i new s).status = statusAfter i := rfl

theorem commit_reg_ne (i : Instr) (new : Word) (s : State) {n : Reg} (h : n ≠ .ip) :
    (commit i new s).reg n = s.reg n := by
  rw [commit_eq, setStatus_reg, setReg_reg_ne _ _ h]

theorem commit_reg8 (i : Instr) (new : Word) (s : State) (n : Reg8) : (commit i new s).reg8 n = s.reg8 n := by
  rw [commit_eq, setStatus_reg8, setReg_reg8_ne]
  simp

/-- The advance of `IP` is exact where the limit check passed (R17, R91). -/
theorem commit_ip (i : Instr) (new : Word) (s : State)
    (h : (s.reg .ip).toNat + i.length ≤ Config.maxOffset) :
    ((commit i new s).reg .ip).toNat = (s.reg .ip).toNat + i.length := by
  rw [commit_eq, setStatus_reg, setReg_reg_self, BitVec.toNat_add, BitVec.toNat_ofNat]
  simp only [Config.maxOffset] at h
  omega

theorem checkIpLimit_ok {i : Instr} {s : State} (h : (s.reg .ip).toNat + i.length ≤ Config.maxOffset) :
    checkIpLimit i s = .ok () := if_neg (by omega)

theorem checkIpLimit_error {i : Instr} {s : State} (h : Config.maxOffset < (s.reg .ip).toNat + i.length) :
    checkIpLimit i s = .error .outOfBounds := if_pos h

@[simp] theorem settle_ok (s t : State) : settle s (.ok t) = .next t := rfl
@[simp] theorem settle_error (s : State) (c : Condition) : settle s (.error c) = .next (raise c s) := rfl

/-- The 8-bit move once every check has passed (R110). -/
theorem moveByte_ok {i : Instr} {dst src : Rm8} {s : State} {v : Byte}
    (hip : (s.reg .ip).toNat + i.length ≤ Config.maxOffset)
    (hv : readLoc8 s (resolve s.regs src) = .ok v) (hd : checkLoc8 (resolve s.regs dst) = .ok ()) :
    moveByte i dst src s = .ok (commit i 0x0000 (writeLoc8 s v (resolve s.regs dst))) := by
  simp [moveByte, checkIpLimit_ok hip, hv, hd]

/-- The 16-bit move once every check has passed (R110). -/
theorem moveWord_ok {i : Instr} {dst src : Rm16} {s : State} {v : Word}
    (hip : (s.reg .ip).toNat + i.length ≤ Config.maxOffset)
    (hv : readLoc16 s (resolve s.regs src) = .ok v) (hd : checkLoc16 (resolve s.regs dst) = .ok ()) :
    moveWord i dst src s = .ok (commit i 0x0000 (writeLoc16 s v (resolve s.regs dst))) := by
  simp [moveWord, checkIpLimit_ok hip, hv, hd]

/-- Past the `IP` limit every move raises `OutOfBounds` (R91). -/
theorem moveByte_limit {i : Instr} {dst src : Rm8} {s : State}
    (h : Config.maxOffset < (s.reg .ip).toNat + i.length) : moveByte i dst src s = .error .outOfBounds := by
  simp [moveByte, checkIpLimit_error h]

theorem moveWord_limit {i : Instr} {dst src : Rm16} {s : State}
    (h : Config.maxOffset < (s.reg .ip).toNat + i.length) : moveWord i dst src s = .error .outOfBounds := by
  simp [moveWord, checkIpLimit_error h]

/-- HLT where its one check passes (R118). -/
theorem haltUnit_ok {s : State} (h : (s.reg .ip).toNat + Instr.length .hlt ≤ Config.maxOffset) :
    haltUnit s = .ok (commit .hlt 0x0000 s) := by simp [haltUnit, checkIpLimit_ok h]

theorem haltUnit_limit {s : State} (h : Config.maxOffset < (s.reg .ip).toNat + Instr.length .hlt) :
    haltUnit s = .error .outOfBounds := by simp [haltUnit, checkIpLimit_error h]

/-- The only condition an operand read raises is `OutOfBounds` (R123 (d)). -/
theorem readLoc8_error {s : State} {l : Location Reg8} {c : Condition} (h : readLoc8 s l = .error c) :
    c = .outOfBounds := by
  cases l with
  | reg r => simp [readLoc8] at h
  | mem pa => simp only [readLoc8, memRead8] at h; split at h <;> simp_all

theorem readLoc16_error {s : State} {l : Location Reg16} {c : Condition} (h : readLoc16 s l = .error c) :
    c = .outOfBounds := by
  cases l with
  | reg r => simp [readLoc16] at h
  | mem pa => simp only [readLoc16, memRead16] at h; split at h <;> simp_all

theorem checkLoc8_error {l : Location Reg8} {c : Condition} (h : checkLoc8 l = .error c) : c = .outOfBounds := by
  cases l with
  | reg r => simp [checkLoc8] at h
  | mem pa => simp only [checkLoc8, checkWrite8] at h; split at h <;> simp_all

theorem checkLoc16_error {l : Location Reg16} {c : Condition} (h : checkLoc16 l = .error c) : c = .outOfBounds := by
  cases l with
  | reg r => simp [checkLoc16] at h
  | mem pa => simp only [checkLoc16, checkWrite16] at h; split at h <;> simp_all

/-- The 8-bit move raises `OutOfBounds`, or every check passed and it commits. -/
theorem moveByte_cases (i : Instr) (dst src : Rm8) (s : State) :
    moveByte i dst src s = .error .outOfBounds ∨
    ∃ v, (s.reg .ip).toNat + i.length ≤ Config.maxOffset ∧ readLoc8 s (resolve s.regs src) = .ok v ∧
      checkLoc8 (resolve s.regs dst) = .ok () ∧
      moveByte i dst src s = .ok (commit i 0x0000 (writeLoc8 s v (resolve s.regs dst))) := by
  rcases Nat.lt_or_ge Config.maxOffset ((s.reg .ip).toNat + i.length) with hip | hip
  · exact .inl (moveByte_limit hip)
  · cases hv : readLoc8 s (resolve s.regs src) with
    | error c => left; simp [moveByte, checkIpLimit_ok hip, hv, readLoc8_error hv]
    | ok v =>
      cases hd : checkLoc8 (resolve s.regs dst) with
      | error c => left; simp [moveByte, checkIpLimit_ok hip, hv, hd, checkLoc8_error hd]
      | ok u => exact .inr ⟨v, hip, rfl, rfl, moveByte_ok hip hv hd⟩

/-- The 16-bit move raises `OutOfBounds`, or every check passed and it commits. -/
theorem moveWord_cases (i : Instr) (dst src : Rm16) (s : State) :
    moveWord i dst src s = .error .outOfBounds ∨
    ∃ v, (s.reg .ip).toNat + i.length ≤ Config.maxOffset ∧ readLoc16 s (resolve s.regs src) = .ok v ∧
      checkLoc16 (resolve s.regs dst) = .ok () ∧
      moveWord i dst src s = .ok (commit i 0x0000 (writeLoc16 s v (resolve s.regs dst))) := by
  rcases Nat.lt_or_ge Config.maxOffset ((s.reg .ip).toNat + i.length) with hip | hip
  · exact .inl (moveWord_limit hip)
  · cases hv : readLoc16 s (resolve s.regs src) with
    | error c => left; simp [moveWord, checkIpLimit_ok hip, hv, readLoc16_error hv]
    | ok v =>
      cases hd : checkLoc16 (resolve s.regs dst) with
      | error c => left; simp [moveWord, checkIpLimit_ok hip, hv, hd, checkLoc16_error hd]
      | ok u => exact .inr ⟨v, hip, rfl, rfl, moveWord_ok hip hv hd⟩

/-- The state after the destination of `i` is written and before the rest of the commit: one case per form. -/
inductive DestWritten (s : State) : Instr → State → Prop where
  | rm8Reg (d r : Reg8) : DestWritten s (.movRm8R8 (.reg d) r) (s.setReg8 d (s.reg8 r))
  | rm8Mem (m : MemOperand) (r : Reg8) (h : operandAddr s.regs m < Config.memSize) :
      DestWritten s (.movRm8R8 (.mem m) r) (s.setMem (s.mem.write (operandAddr s.regs m) (s.reg8 r)))
  | rm16Reg (d r : Reg16) : DestWritten s (.movRm16R16 (.reg d) r) (s.setReg (regOf d) (s.reg (regOf r)))
  | rm16Mem (m : MemOperand) (r : Reg16) (h : operandAddr s.regs m + 1 < Config.memSize) :
      DestWritten s (.movRm16R16 (.mem m) r) (s.setMem (s.mem.write16 (operandAddr s.regs m) (s.reg (regOf r))))
  | r8Reg (d r : Reg8) : DestWritten s (.movR8Rm8 d (.reg r)) (s.setReg8 d (s.reg8 r))
  | r8Mem (d : Reg8) (m : MemOperand) (h : operandAddr s.regs m < Config.memSize) :
      DestWritten s (.movR8Rm8 d (.mem m)) (s.setReg8 d (s.mem.read (operandAddr s.regs m)))
  | r16Reg (d r : Reg16) : DestWritten s (.movR16Rm16 d (.reg r)) (s.setReg (regOf d) (s.reg (regOf r)))
  | r16Mem (d : Reg16) (m : MemOperand) (h : operandAddr s.regs m + 1 < Config.memSize) :
      DestWritten s (.movR16Rm16 d (.mem m)) (s.setReg (regOf d)
        (wordOf (s.mem.read (operandAddr s.regs m)) (s.mem.read (operandAddr s.regs m + 1))))
  | hlt : DestWritten s .hlt s

/-- Where the `IP` limit and the operand's bounds hold, an instruction commits its destination (R90). -/
theorem exec_of_destWritten {i : Instr} {s u : State} (hip : (s.reg .ip).toNat + i.length ≤ Config.maxOffset)
    (h : DestWritten s i u) : exec i s = .next (commit i 0x0000 u) := by
  cases h with
  | rm8Reg d r => exact congrArg (settle s) (moveByte_ok hip rfl rfl)
  | rm8Mem m r h => exact congrArg (settle s) (moveByte_ok (dst := .mem m) (src := .reg r) hip rfl (checkWrite8_ok h))
  | rm16Reg d r => exact congrArg (settle s) (moveWord_ok hip rfl rfl)
  | rm16Mem m r h => exact congrArg (settle s) (moveWord_ok (dst := .mem m) (src := .reg r) hip rfl (checkWrite16_ok h))
  | r8Reg d r => exact congrArg (settle s) (moveByte_ok hip rfl rfl)
  | r8Mem d m h => exact congrArg (settle s) (moveByte_ok (dst := .reg d) (src := .mem m) hip (memRead8_ok _ h) rfl)
  | r16Reg d r => exact congrArg (settle s) (moveWord_ok hip rfl rfl)
  | r16Mem d m h => exact congrArg (settle s) (moveWord_ok (dst := .reg d) (src := .mem m) hip (memRead16_ok _ h) rfl)
  | hlt => exact congrArg (settle s) (haltUnit_ok hip)

theorem checkWrite8_ok_iff {pa : Nat} : checkWrite8 pa = .ok () ↔ pa < Config.memSize := by
  simp only [checkWrite8]; split <;> simp <;> omega

theorem checkWrite16_ok_iff {pa : Nat} : checkWrite16 pa = .ok () ↔ pa + 1 < Config.memSize := by
  simp only [checkWrite16]; split <;> simp <;> omega

theorem memRead8_ok_iff {m : Memory} {pa : Nat} {v : Byte} :
    memRead8 m pa = .ok v ↔ pa < Config.memSize ∧ m.read pa = v := by
  simp only [memRead8]; split <;> simp <;> omega

theorem memRead16_ok_iff {m : Memory} {pa : Nat} {v : Word} :
    memRead16 m pa = .ok v ↔ pa + 1 < Config.memSize ∧ wordOf (m.read pa) (m.read (pa + 1)) = v := by
  simp only [memRead16]; split <;> simp <;> omega

/-- Everything an instruction can do (R90): it raises `OutOfBounds` and changes nothing else, or it writes its
destination and commits. -/
theorem exec_cases (i : Instr) (s : State) :
    exec i s = .next (raise .outOfBounds s) ∨
    (s.reg .ip).toNat + i.length ≤ Config.maxOffset ∧
      ∃ u, DestWritten s i u ∧ exec i s = .next (commit i 0x0000 u) := by
  cases i with
  | movRm8R8 dst r =>
    rcases moveByte_cases (.movRm8R8 dst r) dst (.reg r) s with he | ⟨v, hip, hv, hd, -⟩
    · exact .inl (congrArg (settle s) he)
    · have hw : ∃ u, DestWritten s (.movRm8R8 dst r) u := by
        cases dst with
        | reg d => exact ⟨_, .rm8Reg d r⟩
        | mem m => exact ⟨_, .rm8Mem m r (checkWrite8_ok_iff.mp hd)⟩
      exact .inr ⟨hip, hw.choose, hw.choose_spec, exec_of_destWritten hip hw.choose_spec⟩
  | movRm16R16 dst r =>
    rcases moveWord_cases (.movRm16R16 dst r) dst (.reg r) s with he | ⟨v, hip, hv, hd, -⟩
    · exact .inl (congrArg (settle s) he)
    · have hw : ∃ u, DestWritten s (.movRm16R16 dst r) u := by
        cases dst with
        | reg d => exact ⟨_, .rm16Reg d r⟩
        | mem m => exact ⟨_, .rm16Mem m r (checkWrite16_ok_iff.mp hd)⟩
      exact .inr ⟨hip, hw.choose, hw.choose_spec, exec_of_destWritten hip hw.choose_spec⟩
  | movR8Rm8 d src =>
    rcases moveByte_cases (.movR8Rm8 d src) (.reg d) src s with he | ⟨v, hip, hv, hd, -⟩
    · exact .inl (congrArg (settle s) he)
    · have hw : ∃ u, DestWritten s (.movR8Rm8 d src) u := by
        cases src with
        | reg r => exact ⟨_, .r8Reg d r⟩
        | mem m => exact ⟨_, .r8Mem d m (memRead8_ok_iff.mp hv).1⟩
      exact .inr ⟨hip, hw.choose, hw.choose_spec, exec_of_destWritten hip hw.choose_spec⟩
  | movR16Rm16 d src =>
    rcases moveWord_cases (.movR16Rm16 d src) (.reg d) src s with he | ⟨v, hip, hv, hd, -⟩
    · exact .inl (congrArg (settle s) he)
    · have hw : ∃ u, DestWritten s (.movR16Rm16 d src) u := by
        cases src with
        | reg r => exact ⟨_, .r16Reg d r⟩
        | mem m => exact ⟨_, .r16Mem d m (memRead16_ok_iff.mp hv).1⟩
      exact .inr ⟨hip, hw.choose, hw.choose_spec, exec_of_destWritten hip hw.choose_spec⟩
  | hlt =>
    rcases Nat.lt_or_ge Config.maxOffset ((s.reg .ip).toNat + Instr.length .hlt) with hip | hip
    · exact .inl (congrArg (settle s) (haltUnit_limit hip))
    · exact .inr ⟨hip, s, .hlt, exec_of_destWritten hip .hlt⟩

/-- What a destination's write leaves alone in every form: `IP`, `FLAGS`, the segment registers, `STATUS`,
`IMG_END` (R15). -/
theorem destWritten_frame {i : Instr} {s u : State} (h : DestWritten s i u) :
    u.status = s.status ∧ u.imgEnd = s.imgEnd ∧
    ∀ n ∈ [Reg.ip, .flags, .cs, .ds, .es, .ss], u.reg n = s.reg n := by
  cases h <;> refine ⟨rfl, rfl, fun n hn => ?_⟩ <;>
    first
    | rfl
    | (apply setReg8_reg_ne; rintro rfl; simp at hn)
    | (apply setReg_reg_ne; rintro rfl; simp at hn)

/-- A destination's write keeps the canonical form of memory. -/
theorem destWritten_wf {i : Instr} {s u : State} (h : DestWritten s i u) (hm : s.mem.wf = true) :
    u.mem.wf = true := by
  cases h with
  | rm8Mem m r h => exact wf_write _ hm h
  | rm16Mem m r h => exact wf_write16 _ hm h
  | _ => exact hm

end Sys2Proof.Machine
end

