-- ==== Sys2Proof/Laws/PerInstr.lean ====
section
/-! SUPPORT. One statement about every instruction as a term, a lemma per constructor (LAWS.json): its encoding is
as long as the length formula of R72 says, and has 1 to 4 bytes (R60). -/

namespace Sys2Proof.Laws.EncodedLength

/-- The encoding of a well-formed instruction has `L` bytes, 1 to 4 (R60, R72). -/
def Statement (i : Instr) : Prop :=
  i.wellFormed = true → (encode i).length = i.length ∧ 1 ≤ i.length ∧ i.length ≤ 4

/-- The displacement of a MOV has at most two bytes (R67). -/
theorem dispSizeOf_le (mod : BitVec 2) (rm : BitVec 3) : dispSizeOf mod rm ≤ 2 := by
  revert mod rm; decide

/-- Every MOV, by the fields of its R/M operand. -/
theorem of_fields {ρ : Type} (i : Instr) (code : ρ → BitVec 3) (x : RegMem ρ) (h : x.wellFormed = true)
    (hl : (encode i).length = 2 + x.dispBytes.length) (hi : i.length = 2 + dispSizeOf x.mod (x.rm code)) :
    (encode i).length = i.length ∧ 1 ≤ i.length ∧ i.length ≤ 4 := by
  have := dispBytes_length code x h
  have := dispSizeOf_le x.mod (x.rm code)
  omega

theorem movRm8R8 (dst : Rm8) (src : Reg8) : Statement (.movRm8R8 dst src) := fun h =>
  of_fields _ Reg8.code dst h (by simp [encode, Instr.modeBytes, Instr.mode, Instr.dispBytes]; omega) rfl

theorem movRm16R16 (dst : Rm16) (src : Reg16) : Statement (.movRm16R16 dst src) := fun h =>
  of_fields _ Reg16.code dst h (by simp [encode, Instr.modeBytes, Instr.mode, Instr.dispBytes]; omega) rfl

theorem movR8Rm8 (dst : Reg8) (src : Rm8) : Statement (.movR8Rm8 dst src) := fun h =>
  of_fields _ Reg8.code src h (by simp [encode, Instr.modeBytes, Instr.mode, Instr.dispBytes]; omega) rfl

theorem movR16Rm16 (dst : Reg16) (src : Rm16) : Statement (.movR16Rm16 dst src) := fun h =>
  of_fields _ Reg16.code src h (by simp [encode, Instr.modeBytes, Instr.mode, Instr.dispBytes]; omega) rfl

theorem hlt : Statement .hlt := fun _ => by decide

end Sys2Proof.Laws.EncodedLength
end

