-- ==== Sys2Proof/Laws/Step.lean ====
section
/-! SUPPORT. Instruction fetch and the step: what each check of a fetch answers, and the inversion lemma
`step_cases`, which says everything a step can do. -/

namespace Sys2Proof.Machine

/-- The instruction byte at index `k`, where every check of R78 passes. -/
theorem fetchByte_ok {s : State} {k : Nat} (hoff : (s.reg .ip).toNat + k ≤ Config.maxOffset)
    (hmem : fetchAddr s k < Config.memSize) (himg : fetchAddr s k < s.imgEnd.toNat) :
    fetchByte s k = .ok (s.mem.read (fetchAddr s k)) := by
  have : ¬ (fetchAddr s k < Config.imgOrigin ∨ fetchAddr s k ≥ s.imgEnd.toNat) := by
    simp only [Config.imgOrigin]; omega
  rw [fetchByte, if_neg (by omega), if_neg (by omega), if_neg this]

/-- The offset left the 16-bit space (R78). -/
theorem fetchByte_offset {s : State} {k : Nat} (h : Config.maxOffset < (s.reg .ip).toNat + k) :
    fetchByte s k = .error .outOfBounds := if_pos h

/-- The address lies past the array (R78). -/
theorem fetchByte_past {s : State} {k : Nat} (hoff : (s.reg .ip).toNat + k ≤ Config.maxOffset)
    (hmem : Config.memSize ≤ fetchAddr s k) : fetchByte s k = .error .outOfBounds := by
  rw [fetchByte, if_neg (by omega), if_pos hmem]

/-- The address lies past the loaded region (R78, R124). -/
theorem fetchByte_ranOff {s : State} {k : Nat} (hoff : (s.reg .ip).toNat + k ≤ Config.maxOffset)
    (hmem : fetchAddr s k < Config.memSize) (himg : s.imgEnd.toNat ≤ fetchAddr s k) :
    fetchByte s k = .error .ranOffEnd := by
  rw [fetchByte, if_neg (by omega), if_neg (by omega), if_pos (.inr himg)]

/-- A fetch raises `OutOfBounds` or `RanOffEnd` and no other condition (R78). -/
theorem fetchByte_error {s : State} {k : Nat} {c : Condition} (h : fetchByte s k = .error c) :
    c = .outOfBounds ∨ c = .ranOffEnd := by
  rw [fetchByte] at h
  repeat' split at h
  all_goals simp_all

/-- A fetch that succeeds answers the byte of memory there (R78). -/
theorem fetchByte_value {s : State} {k : Nat} {b : Byte} (h : fetchByte s k = .ok b) :
    b = s.mem.read (fetchAddr s k) := by
  rw [fetchByte] at h
  repeat' split at h
  all_goals simp_all

/-- Decoding at `CS:IP` never raises `MalformedOperand` (R77, R125). -/
theorem fetchInstr_error {s : State} {c : Condition} (h : fetchInstr s = .error c) : c ≠ .malformedOperand := by
  rcases decodeWith_error h with rfl | ⟨k, hk⟩
  · simp
  · rcases fetchByte_error hk with rfl | rfl <;> simp

/-- A STEP in a terminal state changes nothing (R131). -/
theorem step_of_not_ready {s : State} (h : s.status ≠ .ready) : step s = .next s := by
  unfold step; split
  · exact absurd ‹_› h
  · rfl

/-- A STEP whose decoding raises a condition (R90, R127). -/
theorem step_of_error {s : State} (hs : s.status = .ready) {c : Condition} (h : fetchInstr s = .error c) :
    step s = .next (raise c s) := by simp only [step, hs, h]

/-- A STEP whose decoding succeeds executes the instruction (R90). -/
theorem step_of_ok {s : State} (hs : s.status = .ready) {i : Instr} (h : fetchInstr s = .ok i) :
    step s = exec i s := by simp only [step, hs, h]

/-- Everything a step can do (R90, R104, R131): nothing in a terminal state; else it raises a condition and changes
nothing but `STATUS`, or it writes the destination of the instruction at `CS:IP` and commits. -/
theorem step_cases (s : State) :
    (s.status ≠ .ready ∧ step s = .next s) ∨
    (s.status = .ready ∧ ∃ c, c ≠ .malformedOperand ∧ step s = .next (raise c s)) ∨
    (s.status = .ready ∧ ∃ i u, fetchInstr s = .ok i ∧ (s.reg .ip).toNat + i.length ≤ Config.maxOffset ∧
      DestWritten s i u ∧ step s = .next (commit i 0x0000 u)) := by
  by_cases hs : s.status = .ready
  · right
    cases hi : fetchInstr s with
    | error c => exact .inl ⟨hs, c, fetchInstr_error hi, step_of_error hs hi⟩
    | ok i =>
      rw [step_of_ok hs hi]
      rcases exec_cases i s with he | ⟨hip, u, hu, he⟩
      · exact .inl ⟨hs, _, by simp, he⟩
      · exact .inr ⟨hs, i, u, rfl, hip, hu, he⟩
  · exact .inl ⟨hs, step_of_not_ready hs⟩

/-- The state a step of a terminal state, a raise or a commit answers is the one the outcome names. -/
theorem next_inj {s t : State} (h : (Host.Outcome.next s : Host.Outcome State Fault Refusal) = .next t) : s = t := by
  injection h

end Sys2Proof.Machine
end

