-- ==== Sys2Proof/Machine/AsmText.lean ====
section
/-! DEFINITION. The text this spec writes for an instruction (R81): `MOV dst, src`, brackets for memory. It is a
way of writing instructions down and no part of what the machine does; the bytes are normative (D16). -/

namespace Sys2Proof.Machine

/-- One hexadecimal digit. -/
def hexDigit (n : Nat) : Char := "0123456789ABCDEF".toList.getD (n % 16) '0'

/-- `n` hexadecimal digits after `0x` (R4). -/
def hexText (digits n : Nat) : String :=
  "0x" ++ String.ofList ((List.range digits).reverse.map (fun k => hexDigit (n / 16 ^ k)))

/-- The name of an 8-bit register (R11, R14). -/
def reg8Name : Reg8 → String
  | .al => "AL"
  | .cl => "CL"
  | .dl => "DL"
  | .bl => "BL"
  | .ah => "AH"
  | .ch => "CH"
  | .dh => "DH"
  | .bh => "BH"

/-- The name of a 16-bit register (R10, R14). -/
def reg16Name : Reg16 → String
  | .ax => "AX"
  | .cx => "CX"
  | .dx => "DX"
  | .bx => "BX"
  | .sp => "SP"
  | .bp => "BP"
  | .si => "SI"
  | .di => "DI"

/-- A base expression as it stands inside the brackets (R81). -/
def baseName : BaseExpr → String
  | .bxSi => "BX+SI"
  | .bxDi => "BX+DI"
  | .bpSi => "BP+SI"
  | .bpDi => "BP+DI"
  | .si => "SI"
  | .di => "DI"
  | .bp => "BP"
  | .bx => "BX"

/-- A memory operand (R81). A one-byte displacement is written with its sign, a 16-bit one as it is encoded. -/
def memText : MemOperand → String
  | .direct a => "[" ++ hexText 4 a.toNat ++ "]"
  | .base b => "[" ++ baseName b ++ "]"
  | .disp8 b d =>
    "[" ++ baseName b ++ (if d.toNat < 128 then "+" ++ hexText 2 d.toNat else "-" ++ hexText 2 (256 - d.toNat)) ++ "]"
  | .disp16 b d => "[" ++ baseName b ++ "+" ++ hexText 4 d.toNat ++ "]"

/-- An R/M operand (R81). -/
def rmText {ρ : Type} (name : ρ → String) : RegMem ρ → String
  | .reg r => name r
  | .mem m => memText m

/-- An instruction, destination first (R81). -/
def asmText : Instr → String
  | .movRm8R8 dst src => "MOV " ++ rmText reg8Name dst ++ ", " ++ reg8Name src
  | .movRm16R16 dst src => "MOV " ++ rmText reg16Name dst ++ ", " ++ reg16Name src
  | .movR8Rm8 dst src => "MOV " ++ reg8Name dst ++ ", " ++ rmText reg8Name src
  | .movR16Rm16 dst src => "MOV " ++ reg16Name dst ++ ", " ++ rmText reg16Name src
  | .hlt => "HLT"

end Sys2Proof.Machine
end

