-- ==== Sys2Proof/Tests/Slice0.lean ====
section
/-! SUPPORT. The model's own tests. Expected values come from the spec: its encodings (30_encoding.md), its worked
examples (41_mov.md, 42_hlt.md) and its vectors (95_test_vectors.md, named by section). The witnesses show that the
hypotheses of each obligation can be met, clause by clause at the edges of its ranges. -/

namespace Sys2Proof.Tests

open Sys2Proof Sys2Proof.Machine

/-! ## WellFormed: the one check -/

/-- `[BP]` without a displacement has no encoding (R81 (c)). -/
theorem test_bp_alone_is_ill_formed_in_every_form :
    [Instr.movRm8R8 (.mem (.base .bp)) .al, .movRm16R16 (.mem (.base .bp)) .ax, .movR8Rm8 .al (.mem (.base .bp)),
      .movR16Rm16 .ax (.mem (.base .bp))].all (fun i => !i.wellFormed) = true := by decide

theorem test_bp_with_displacement_is_well_formed :
    (Instr.movR16Rm16 .ax (.mem (.disp8 .bp 0x00))).wellFormed = true := by decide

/-! ## Decoding: words written out from R61, R62 and R67 -/

/-- 10001000 11 000 011 (L1). -/
theorem test_decode_88_C3 : decode [0b10001000, 0b11000011] = .ok (.movRm8R8 (.reg .bl) .al) := by rfl

/-- 10001001 10 000 110, disp 0x0100 low byte first (program P3). -/
theorem test_decode_89_86 :
    decode [0b10001001, 0b10000110, 0x00, 0x01] = .ok (.movRm16R16 (.mem (.disp16 .bp 0x0100)) .ax) := by rfl

/-- 10001010 01 100 000, disp -1 (R113's example). -/
theorem test_decode_8A_60 :
    decode [0b10001010, 0b01100000, 0xFF] = .ok (.movR8Rm8 .ah (.mem (.disp8 .bxSi 0xFF))) := by rfl

/-- 10001011 00 000 110: the direct address, never `[BP]` (L4). -/
theorem test_decode_8B_06 :
    decode [0b10001011, 0b00000110, 0x10, 0x00] = .ok (.movR16Rm16 .ax (.mem (.direct 0x0010))) := by rfl

theorem test_decode_F4 : decode [0b11110100] = .ok .hlt := by rfl

/-- Section 2.8: a byte of no row, a byte of HLT's class, a truncated instruction. -/
theorem test_decode_rejects : decode [0x90] = .error .unsupportedOpcode ∧ decode [0xF5] = .error .unsupportedOpcode ∧
    decode [0x8B, 0x86, 0x00] = .error .ranOffEnd := ⟨rfl, rfl, rfl⟩

/-- The record of L1, field by field. -/
theorem test_record_of_88_C3 : (Instr.movRm8R8 (.reg .bl) .al).record =
    { mnemonic := .mov, d := false, w := false, mode := some (0b11#2, 0b000#3, 0b011#3), dispSize := 0,
      disp := 0x0000, immSize := 0, length := 2 } := by decide

/-- The table word of `8B 06 10 00`, bit 0 the least significant bit of the first byte. -/
theorem test_decode_table_word : decodeTableWord 32 0x0010068B = some (.movR16Rm16 .ax (.mem (.direct 0x0010))) := by rfl

theorem test_encode_89_1E : encode (.movRm16R16 (.mem (.direct 0x0012)) .bx) = [0x89, 0x1E, 0x12, 0x00] := by rfl

/-- The text of two lines of programs P1 and P3 (R81). -/
theorem test_asm_text : asmText (.movR8Rm8 .ah (.mem (.disp8 .bxSi 0xFF))) = "MOV AH, [BX+SI-0x01]" ∧
    asmText (.movRm16R16 (.mem (.direct 0x0012)) .bx) = "MOV [0x0012], BX" := by decide

/-! ## One step on a small state -/

/-- READY at offset 0 with the bytes loaded there and the registers given. -/
def fresh (bytes : List Byte) (regs : RegFile) (imgEnd : BitVec 21) : State :=
  { regs := regs, mem := Memory.writeAll [] 0 bytes, status := .ready, imgEnd := imgEnd }

/-- What a step leaves, none if it does not answer a next state. -/
def after (s : State) : Option State :=
  match step s with
  | .next t => some t
  | _ => none

/-- One register, `IP` and `STATUS` after a step. -/
def seen (n : Reg) (s : State) : Option (Word × Word × Status) :=
  (after s).map fun t => (t.reg n, t.reg .ip, t.status)

/-- Section 2.5: `88 C3` takes BL from AL and keeps BH. -/
theorem test_mov_bl_al : seen .bx (fresh [0x88, 0xC3] { RegFile.zero with ax := 0x775A, bx := 0x1234 } 2)
    = some (0x125A, 0x0002, .ready) := by decide

/-- Section 2.6: `88 07` stores one byte and leaves its neighbours. -/
theorem test_mov_mem_al :
    (after (fresh [0x88, 0x07] { RegFile.zero with ax := 0xAB77, bx := 0x0020 } 2)).map
      (fun t => [t.mem.read 0x1F, t.mem.read 0x20, t.mem.read 0x21]) = some [0x00, 0x77, 0x00] := by decide

/-- Section 2.5: `89 E5`, code 100 is SP at W=1. -/
theorem test_mov_bp_sp : seen .bp (fresh [0x89, 0xE5] { RegFile.zero with sp := 0xFFFE, bp := 0x1111 } 2)
    = some (0xFFFE, 0x0002, .ready) := by decide

/-- Section 2.6: `89 86 00 01` stores a word, low byte first, outside the loaded region. -/
theorem test_mov_mem_ax :
    (after (fresh [0x89, 0x86, 0x00, 0x01] { RegFile.zero with ax := 0x1122, bp := 0x0050 } 4)).map
      (fun t => [t.mem.read 0x14F, t.mem.read 0x150, t.mem.read 0x151, t.mem.read 0x152])
    = some [0x00, 0x22, 0x11, 0x00] := by decide

/-- Section 2.5: `8A E8`, code 101 is CH at W=0. -/
theorem test_mov_ch_al : seen .cx (fresh [0x8A, 0xE8] { RegFile.zero with ax := 0xABCD, cx := 0x00AB } 2)
    = some (0xCDAB, 0x0002, .ready) := by decide

/-- Section 2.6, segment selection: `8A 46 00` reads through `SS`. -/
theorem test_mov_al_through_ss :
    seen .ax { fresh [0x8A, 0x46, 0x00] { RegFile.zero with ss := 0x1000, ds := 0x2000, bp := 0x0005 } 3 with
      mem := [(0, 0x8A), (1, 0x46), (0x10005, 0xA5), (0x20005, 0x5A)] } = some (0x00A5, 0x0003, .ready) := by decide

/-- Section 2.6: `8B 1F` takes its address from the old `BX`. -/
theorem test_mov_bx_from_bx :
    seen .bx { fresh [0x8B, 0x1F] { RegFile.zero with bx := 0x0020 } 2 with
      mem := [(0, 0x8B), (1, 0x1F), (0x20, 0x99), (0x21, 0x88)] } = some (0x8899, 0x0002, .ready) := by decide

/-- Section 2.6: `8B 47 FF` takes its high byte from physical 0x10000. -/
theorem test_mov_ax_across_0FFFF :
    seen .ax { fresh [0x8B, 0x47, 0xFF] RegFile.zero 3 with
      mem := [(0, 0x8B), (1, 0x47), (2, 0xFF), (0xFFFF, 0x11), (0x10000, 0x22)] }
    = some (0x2211, 0x0003, .ready) := by decide

/-- Section 2.7: `F4` halts, and a second STEP changes nothing. -/
theorem test_hlt : seen .ax (fresh [0xF4] RegFile.zero 1) = some (0x0000, 0x0001, .halted) := by decide

theorem test_hlt_is_sticky : ((after (fresh [0xF4] RegFile.zero 1)).bind after) = after (fresh [0xF4] RegFile.zero 1) := by
  decide

/-- Section 2.8: the four terminal conditions a step can meet, `IP` unchanged. -/
theorem test_terminal_conditions :
    [seen .ax State.reset, seen .ax (fresh [0x90] RegFile.zero 1), seen .ax (fresh [0x8B, 0x06, 0x10] RegFile.zero 3),
      seen .ax (fresh [0x89, 0x07] { RegFile.zero with ds := 0xFFFF, bx := 0x000F } 2)]
    = [some (0, 0, .ranOffEnd), some (0, 0, .unsupportedOpcode), some (0, 0, .ranOffEnd), some (0, 0, .outOfBounds)] := by
  decide

/-- Section 2.8: `8B 06 00 00` at 0xFFFC is fetched whole and then stopped by the `IP` limit. -/
theorem test_ip_limit :
    seen .ax { fresh [] { RegFile.zero with ip := 0xFFFC } 0x10000 with mem := [(0xFFFC, 0x8B), (0xFFFD, 0x06)] }
    = some (0x0000, 0xFFFC, .outOfBounds) := by decide

/-- Section 2.4: with `DS` = 0xFFFF the last valid byte is at `EA` 0x000F, and 0x0010 is out of bounds. -/
theorem test_physical_address : physAddr 0xFFFF 0x000F = 0xFFFFF ∧ physAddr 0xFFFF 0x0010 = 0x100000 ∧
    physAddr 0xFFFF 0xFFFF = 0x10FFEF := by decide

/-- What the host asks: a table word placed after reset is decoded and run. -/
theorem test_with_fetch_word :
    [(0xC388, 16), (0x00120E89, 32), (0xFF608A, 24), (0x0010068B, 32), (0xF4, 8)].map
      (fun p => (after (State.reset.withFetchWord p.2 p.1)).map fun t => (t.reg .ip, t.status))
    = [some (2, .ready), some (4, .ready), some (3, .ready), some (4, .ready), some (1, .halted)] := by decide

/-- `FLAGS` positions (R18): in 0x0FD5 every named flag is set (L5). -/
theorem test_flag_positions :
    [Flag.cf, .pf, .af, .zf, .sf, .tf, .if, .df, .of].all (flagValue · 0x0FD5) = true
      ∧ flagMask [.cf, .pf, .af, .zf, .sf, .tf, .if, .df, .of] = 0x0FD5 := by decide

/-! ## Witnesses: the hypotheses of the obligations can be met, each clause at an edge of its range -/

theorem witness_bytePairs : (Reg8.dl, Reg8.dh, Reg.dx) ∈ bytePairs := by decide

theorem witness_memory_wf : Memory.wf [(0x00000, 0x01), (0xFFFFF, 0xFF)] = true ∧ 0xFFFFF < 0x100000 ∧
    0x100000 ≤ 0x100000 ∧ 0xFFFFE + 1 < 0x100000 ∧ 0x100000 ≤ 0xFFFFF + 1 := by decide

theorem witness_MemoryListsAreCanonical : ∀ a : Nat, a < 0x100000 → Memory.read [] a = Memory.read [] a := fun _ _ => rfl

theorem witness_LoadCopiesTheImage : State.reset.mem.wf = true ∧
    (List.replicate 0x100000 (0x90 : Byte)).length ≤ 0x100000 ∧
    0x100000 < (List.replicate 0x100001 (0x90 : Byte)).length := by
  refine ⟨rfl, ?_, ?_⟩
  · exact Nat.le_of_eq List.length_replicate
  · rw [List.length_replicate]; decide

theorem witness_wellFormed_instruction : (Instr.movRm8R8 (.mem (.base .bx)) .al).wellFormed = true := by decide

theorem witness_EncodeOfDecode : decode [0x88, 0xC3, 0x90] = .ok (.movRm8R8 (.reg .bl) .al) := by rfl

/-- A mode byte for each clause of the length table and of the record's fields, with the two signs of disp8. -/
theorem witness_mode_bytes :
    decode [0x88, 0xC3, 0, 0] = .ok (.movRm8R8 (.reg .bl) .al) ∧ (0xC3#8).extractLsb' 6 2 = 0b11#2 ∧
    decode [0x89, 0x07, 0, 0] = .ok (.movRm16R16 (.mem (.base .bx)) .ax) ∧ (0x07#8).extractLsb' 6 2 = 0b00#2 ∧
    (0x07#8).extractLsb' 0 3 ≠ 0b110#3 ∧
    decode [0x8A, 0x46, 0x7F, 0] = .ok (.movR8Rm8 .al (.mem (.disp8 .bp 0x7F))) ∧
    decode [0x8A, 0x46, 0x80, 0] = .ok (.movR8Rm8 .al (.mem (.disp8 .bp 0x80))) ∧
    (0x46#8).extractLsb' 6 2 = 0b01#2 ∧
    decode [0x8B, 0x87, 0x34, 0x12] = .ok (.movR16Rm16 .ax (.mem (.disp16 .bx 0x1234))) ∧
    (0x87#8).extractLsb' 6 2 = 0b10#2 ∧
    decode [0x8B, 0x06, 0x34, 0x12] = .ok (.movR16Rm16 .ax (.mem (.direct 0x1234))) ∧
    (0x06#8).extractLsb' 6 2 = 0b00#2 ∧ (0x06#8).extractLsb' 0 3 = 0b110#3 := by
  refine ⟨rfl, ?_, rfl, ?_, ?_, rfl, rfl, ?_, rfl, ?_, rfl, ?_, ?_⟩ <;> decide

theorem witness_EveryModeByteIsLegal :
    step (State.reset.setStatus .malformedOperand) = .next (State.reset.setStatus .malformedOperand) := by rfl

theorem witness_OtherFirstBytesAreUnsupported : 0xF5#8 ∉ [0x88#8, 0x89#8, 0x8A#8, 0x8B#8, 0xF4#8] := by decide

theorem witness_baseRegisters : (BaseExpr.bpDi, [Reg.bp, Reg.di]) ∈ baseRegisters := by decide

/-- A state at the greatest `IP` an instruction of `len` bytes completes at, with `DS` = 0xFFFF. -/
def atLimit (len : Nat) : State :=
  { State.reset with regs := { RegFile.zero with ds := 0xFFFF, ip := BitVec.ofNat 16 (0xFFFF - len) } }

/-- The register forms at `IP` + 2 = 0xFFFF; the memory forms at `IP` + 4 = 0xFFFF on the last byte and the last word
of the array. -/
theorem witness_completion :
    ((atLimit 2).reg .ip).toNat + 2 ≤ 0xFFFF ∧ (MemOperand.direct 0x000F).wellFormed = true ∧
    ((atLimit 4).reg .ip).toNat + (2 + (MemOperand.direct 0x000F).dispBytes.length) ≤ 0xFFFF ∧
    operandAddr (atLimit 4).regs (.direct 0x000F) < 0x100000 ∧
    ((atLimit 4).reg .ip).toNat + (2 + (MemOperand.direct 0x000E).dispBytes.length) ≤ 0xFFFF ∧
    operandAddr (atLimit 4).regs (.direct 0x000E) + 1 < 0x100000 ∧ ((atLimit 1).reg .ip).toNat + 1 ≤ 0xFFFF := by
  decide

theorem witness_ExecRaisesOutOfBounds :
    0xFFFF < ((atLimit 0).reg .ip).toNat + (encode .hlt).length ∧
    0xFFFF < ((atLimit 1).reg .ip).toNat + (encode (.movRm8R8 (.reg .bl) .al)).length ∧
    0x100000 ≤ operandAddr (atLimit 4).regs (.direct 0x0010) ∧
    0x100000 ≤ operandAddr (atLimit 4).regs (.direct 0x000F) + 1 := by decide

theorem witness_RegisterFormsFrame :
    (StoresNothing (.movR8Rm8 .ah (.mem (.direct 0x000F))) (some .ax) ∧
      ∃ t, exec (.movR8Rm8 .ah (.mem (.direct 0x000F))) (atLimit 4) = .next t ∧ t.status = .ready) ∧
    (StoresNothing .hlt none ∧ ∃ t, exec .hlt (atLimit 1) = .next t ∧ t.status = .halted) ∧
    ∃ t, exec (.movRm8R8 (.reg .ah) .bl) (atLimit 2) = .next t ∧ t.status = .ready ∧ Reg8.al ≠ .ah :=
  ⟨⟨.movR8Rm8 _ _, _, rfl, rfl⟩, ⟨.hlt, _, rfl, rfl⟩, _, rfl, rfl, by decide⟩

theorem witness_MemoryFormsFrame :
    (∃ t, exec (.movRm8R8 (.mem (.direct 0x000F)) .al) (atLimit 4) = .next t ∧ t.status = .ready) ∧
    (∃ t, exec (.movRm16R16 (.mem (.direct 0x000E)) .ax) (atLimit 4) = .next t ∧ t.status = .ready) ∧
    outsideAccess 0xFFFFE 2 0xFFFFD ∧ outsideAccess 0xFFFFE 2 0x100000 ∧ outsideAccess 0xFFFFF 1 0xFFFFE :=
  ⟨⟨_, rfl, rfl⟩, ⟨_, rfl, rfl⟩, by unfold outsideAccess; decide, by unfold outsideAccess; decide,
    by unfold outsideAccess; decide⟩

theorem witness_FlagUpdateWritesOnlyItsFlags : 15 < 16 ∧ hltRow ∈ opcodeTable := by decide

/-- `88 C3` in the last two bytes of a loaded region that ends there. -/
def twoBytesLoaded : State := fresh [0x88, 0xC3] RegFile.zero 2

theorem witness_StepRunsTheDecodedInstruction :
    (Instr.movRm8R8 (.reg .bl) .al).wellFormed = true ∧ twoBytesLoaded.status = .ready ∧
    (twoBytesLoaded.reg .ip).toNat + (encode (.movRm8R8 (.reg .bl) .al)).length ≤ 0x10000 ∧
    (twoBytesLoaded.reg .cs).toNat * 16 + (twoBytesLoaded.reg .ip).toNat + (encode (.movRm8R8 (.reg .bl) .al)).length
      ≤ 0x100000 ∧
    (twoBytesLoaded.reg .cs).toNat * 16 + (twoBytesLoaded.reg .ip).toNat + (encode (.movRm8R8 (.reg .bl) .al)).length
      ≤ twoBytesLoaded.imgEnd.toNat ∧
    (∀ (k : Nat) (h : k < (encode (.movRm8R8 (.reg .bl) .al)).length),
      twoBytesLoaded.mem.read ((twoBytesLoaded.reg .cs).toNat * 16 + (twoBytesLoaded.reg .ip).toNat + k) =
        (encode (.movRm8R8 (.reg .bl) .al))[k]) := by decide

/-- Each check of a fetch at its edge: offset 0x10000, physical 0x100000, the first byte past the loaded region, its
last byte. -/
theorem witness_FetchByteChecks :
    (0xFFFF < ((atLimit 0).reg .ip).toNat + 1) ∧
    ((0x0010 : Nat) + 0 ≤ 0xFFFF ∧ 0x100000 ≤ (0xFFFF#16).toNat * 16 + (0x0010 + 0)) ∧
    ((twoBytesLoaded.reg .ip).toNat + 2 ≤ 0xFFFF ∧ fetchAddr twoBytesLoaded 2 < 0x100000 ∧
      twoBytesLoaded.imgEnd.toNat ≤ fetchAddr twoBytesLoaded 2) ∧
    ((twoBytesLoaded.reg .ip).toNat + 1 ≤ 0xFFFF ∧ fetchAddr twoBytesLoaded 1 < 0x100000 ∧
      fetchAddr twoBytesLoaded 1 < twoBytesLoaded.imgEnd.toNat) := by decide

theorem witness_FailedFetchEndsTheStep :
    (Instr.movR16Rm16 .ax (.mem (.disp8 .bp 0x05))).wellFormed = true ∧
    2 < (encode (.movR16Rm16 .ax (.mem (.disp8 .bp 0x05)))).length ∧
    encode (.movR16Rm16 .ax (.mem (.disp8 .bp 0x05))) = [0x8B, 0x46, 0x05] ∧
    (fresh [0x8B, 0x46] RegFile.zero 2).status = .ready ∧
    fetchByte (fresh [0x8B, 0x46] RegFile.zero 2) 0 = .ok 0x8B ∧
    fetchByte (fresh [0x8B, 0x46] RegFile.zero 2) 1 = .ok 0x46 ∧
    fetchByte (fresh [0x8B, 0x46] RegFile.zero 2) 2 = .error .ranOffEnd :=
  ⟨rfl, by decide, rfl, rfl, rfl, rfl, rfl⟩

theorem witness_UnsupportedOpcodeEndsTheStep :
    (fresh [0xF5] RegFile.zero 1).status = .ready ∧ fetchByte (fresh [0xF5] RegFile.zero 1) 0 = .ok 0xF5 := ⟨rfl, rfl⟩

theorem witness_TerminalStatesAreSticky : (State.reset.setStatus .halted).terminal := by
  unfold State.terminal; decide

/-- A READY state whose step completes, one whose step halts, and one whose step fails. -/
theorem witness_ready_steps :
    (twoBytesLoaded.status = .ready ∧ ∃ t, step twoBytesLoaded = .next t ∧ t.status = .ready) ∧
    (∃ t, step (fresh [0xF4] RegFile.zero 1) = .next t ∧ t.status = .halted) ∧
    (State.reset.status = .ready ∧ ∃ t, step State.reset = .next t ∧ t.status = .ranOffEnd) :=
  ⟨⟨rfl, _, rfl, rfl⟩, ⟨_, rfl, rfl⟩, rfl, _, rfl, rfl⟩

/-- Two states that differ in a register decoding does not look at. -/
theorem witness_DecodingIsAFunctionOfTheBytes :
    twoBytesLoaded.reg .cs = (twoBytesLoaded.setReg .ax 1).reg .cs ∧
    twoBytesLoaded.reg .ip = (twoBytesLoaded.setReg .ax 1).reg .ip ∧
    twoBytesLoaded.imgEnd = (twoBytesLoaded.setReg .ax 1).imgEnd ∧ twoBytesLoaded ≠ twoBytesLoaded.setReg .ax 1 ∧
    (∀ k : Nat, k < 4 → twoBytesLoaded.mem.read (0 + k) = (twoBytesLoaded.setReg .ax 1).mem.read (0 + k)) := by decide

/-- A store on the byte the next step fetches first (as in program P4). -/
def storesAhead : State := fresh [0x88, 0x06, 0x04, 0x00, 0x88, 0xC3] { RegFile.zero with ax := 0xF4F4 } 6

theorem witness_StoresAreSeenByTheNextFetch :
    storesAhead.mem.wf = true ∧
    (∃ t, exec (.movRm8R8 (.mem (.direct 0x0004)) .al) storesAhead = .next t ∧ t.status = .ready ∧
      fetchByte t 0 = .ok 0xF4 ∧ fetchAddr t 0 = operandAddr storesAhead.regs (.direct 0x0004)) ∧
    (∃ t, exec (.movRm16R16 (.mem (.direct 0x0004)) .ax) storesAhead = .next t ∧ t.status = .ready ∧
      fetchByte t 1 = .ok 0xF4 ∧ fetchAddr t 1 = operandAddr storesAhead.regs (.direct 0x0004) + 1) :=
  ⟨rfl, ⟨_, rfl, rfl, rfl, rfl⟩, ⟨_, rfl, rfl, rfl, rfl⟩⟩

theorem witness_invariant : State.reset.Inv ∧ ∃ t, step State.reset = .next t :=
  ⟨⟨rfl, by decide, rfl, rfl, rfl, rfl, rfl, by decide⟩, _, rfl⟩

theorem witness_InvariantHoldsAfterResetAndLoad :
    Memory.wf [(0xFFFFF, 0xAA)] = true ∧ ∃ t, State.reset.load [0xF4] = .next t := ⟨by decide, _, rfl⟩

theorem witness_ReachableStatesAddressWithoutSegments :
    ∃ s, Reachable [] [0xF4] s ∧ (s.reg .ip).toNat + Instr.length .hlt ≤ 0xFFFF :=
  ⟨_, .loaded rfl, by decide⟩

theorem witness_TheHostCannotWriteAfterLoad :
    (Session.after State.reset).loadAllowed = false ∧
    (Session.after State.reset).command (.readReg .ax) = .next (Session.after State.reset, .word 0) := ⟨rfl, rfl⟩

theorem witness_CommandProtocol : (Session.fresh []).loadAllowed = true ∧ ([] : List Byte).length ≤ 0x100000 ∧
    0x100000 < (List.replicate 0x100001 (0x90 : Byte)).length := by
  refine ⟨rfl, by decide, ?_⟩
  rw [List.length_replicate]
  decide

end Sys2Proof.Tests
end

/-! PROOFS. The register file (R11 to R13): O1 and O2. -/

namespace Sys2Proof.Machine

/-! ## The 8-bit access path of a pair

The four pairs differ in their names alone: what the access path looks at is which register holds the byte and
which half of it the byte is. -/

theorem parentOf_and_half_of_bytePairs {lo hi : Reg8} {p : Reg} (h : (lo, hi, p) ∈ bytePairs) :
    (parentOf lo = p ∧ isHighByte lo = false) ∧ parentOf hi = p ∧ isHighByte hi = true := by
  simp only [bytePairs, List.mem_cons, List.not_mem_nil, or_false, Prod.mk.injEq] at h
  obtain ⟨rfl, rfl, rfl⟩ | ⟨rfl, rfl, rfl⟩ | ⟨rfl, rfl, rfl⟩ | ⟨rfl, rfl, rfl⟩ := h <;> decide

section BytePair

variable {lo hi : Reg8} {p : Reg} (hp : (lo, hi, p) ∈ bytePairs)
include hp

theorem get8_low (rf : RegFile) : rf.get8 lo = loByte (rf.get p) := by
  obtain ⟨⟨rfl, hlow⟩, -⟩ := parentOf_and_half_of_bytePairs hp
  simp [RegFile.get8, hlow]

theorem get8_high (rf : RegFile) : rf.get8 hi = hiByte (rf.get p) := by
  obtain ⟨-, rfl, hhigh⟩ := parentOf_and_half_of_bytePairs hp
  simp [RegFile.get8, hhigh]

theorem set8_low (rf : RegFile) (v : Byte) : rf.set8 lo v = rf.set p (wordOf v (hiByte (rf.get p))) := by
  obtain ⟨⟨rfl, hlow⟩, -⟩ := parentOf_and_half_of_bytePairs hp
  simp [RegFile.set8, hlow]

theorem set8_high (rf : RegFile) (v : Byte) : rf.set8 hi v = rf.set p (wordOf (loByte (rf.get p)) v) := by
  obtain ⟨-, rfl, hhigh⟩ := parentOf_and_half_of_bytePairs hp
  simp [RegFile.set8, hhigh]

/-- The write of the high byte keeps the low byte written before it (R13). -/
theorem get_set8_low_set8_high (rf : RegFile) (l h : Byte) :
    ((rf.set8 lo l).set8 hi h).get p = wordOf l h := by
  have hlow : (rf.set8 lo l).get p = wordOf l (hiByte (rf.get p)) := by rw [set8_low hp, get_set_self]
  rw [set8_high hp, get_set_self, hlow, loByte_wordOf]

end BytePair

/-! ## The obligations -/

/-- Settles O2: the first clause is the write-then-read laws of the register file; the second reads each byte of
the pair from the parent just written, and the parent from its two bytes. -/
theorem sixteenBitAccessPath : Obligations.SixteenBitAccessPath := by
  refine ⟨fun rf n v => ⟨get_set_self rf n v, fun k hk => get_set_ne rf v hk⟩, fun lo hi p hp rf v l h => ⟨?_, ?_, ?_⟩⟩
  · rw [get8_low hp, get_set_self, loByte]
  · rw [get8_high hp, get_set_self, hiByte]
  · exact get_set8_low_set8_high hp rf l h

/-- Settles O1: each clause is the access path of one byte of the pair, with `loByte`, `hiByte` and `wordOf`
written as the bits they stand for. -/
theorem subregistersAreViewsOfTheirParent : Obligations.SubregistersAreViewsOfTheirParent :=
  fun _ _ _ hp rf v => ⟨get8_low hp rf, get8_high hp rf, set8_low hp rf v, set8_high hp rf v⟩

end Sys2Proof.Machine

/-! PROOFS. The byte access primitives (R45, R46): O4. -/

namespace Sys2Proof.Machine

/-- A byte write inside the array is the store alone (R46). -/
theorem memWrite8_ok (m : Memory) {pa : Nat} (v : Byte) (h : pa < Config.memSize) :
    memWrite8 m pa v = .ok (m.write pa v) := by
  rw [memWrite8, checkWrite8_ok h]

/-- A byte write outside the array raises `OutOfBounds` (R44, R46). -/
theorem memWrite8_error (m : Memory) {pa : Nat} (v : Byte) (h : Config.memSize ≤ pa) :
    memWrite8 m pa v = .error .outOfBounds := by
  rw [memWrite8, checkWrite8_error h]

/-- Settles O4: the bounds check decides each access; where it passes, the memory written is `m.write pa v`, which
is canonical and is read by the read-after-write laws of the memory list. -/
theorem byteAccessPrimitives : Obligations.ByteAccessPrimitives := by
  intro m pa v hm
  refine ⟨fun hout => ⟨memRead8_error m hout, memWrite8_error m v hout⟩,
    fun hin => ⟨memRead8_ok m hin, m.write pa v, memWrite8_ok m v hin, ?canonical, ?written, ?others⟩⟩
  case canonical => exact wf_write v hm hin
  case written => exact read_write_self pa v hm
  case others => exact fun a ha => read_write_ne m v ha

end Sys2Proof.Machine

/-! PROOFS. Decoding: the legality of every mode byte (R77) and what decoding depends on (R80): O12 and O34. -/

namespace Sys2Proof.Machine

/-! ## Every mode byte is legal -/

/-- The four first bytes of R65 select the MOV row. -/
theorem lookupRow_of_mem_movFirstBytes {b0 : Byte} (h : b0 ∈ [0x88#8, 0x89#8, 0x8A#8, 0x8B#8]) :
    lookupRow b0 = some movRow := by
  revert b0; decide

/-- No mode byte is refused: a MOV decodes wherever its four bytes are fetched (R77). -/
theorem decodeWith_mov_succeeds {f : Nat → Except Condition Byte} {b0 b1 d0 d1 : Byte}
    (hrow : lookupRow b0 = some movRow) (h0 : f 0 = .ok b0) (h1 : f 1 = .ok b1) (h2 : f 2 = .ok d0)
    (h3 : f 3 = .ok d1) : ∃ i, decodeWith f = .ok i := by
  rw [decodeWith_mov h0 hrow, h1]
  cases hrm : decodeRm f (modField b1) (rmField b1) with
  | ok x => exact ⟨movOf (dBit b0) (wBit b0) (regField b1) x, by simp only [hrm]⟩
  | error c =>
    have hfailed : f 2 = .error c ∨ f 3 = .error c := decodeRm_error hrm
    simp [h2, h3] at hfailed

/-- A condition other than `MalformedOperand` has another `STATUS` (R120). -/
theorem statusOf_ne_malformedOperand {c : Condition} (h : c ≠ .malformedOperand) :
    statusOf c ≠ .malformedOperand := by
  cases c with
  | malformedOperand => exact absurd rfl h
  | _ => simp [statusOf]

/-- A completed step leaves `READY` or `HALTED` (R90). -/
theorem statusAfter_ne_malformedOperand (i : Instr) : statusAfter i ≠ .malformedOperand := by
  rw [statusAfter_eq]
  split <;> decide

/-- No step brings `MALFORMED_OPERAND` about (R77, R125). -/
theorem status_of_step_malformedOperand {s t : State} (h : step s = .next t) (ht : t.status = .malformedOperand) :
    s.status = .malformedOperand := by
  rcases step_cases s with ⟨-, hstep⟩ | ⟨-, c, hc, hstep⟩ | ⟨-, i, u, -, -, -, hstep⟩
  · obtain rfl := next_inj (hstep.symm.trans h)
    exact ht
  · obtain rfl := next_inj (hstep.symm.trans h)
    exact absurd ht (statusOf_ne_malformedOperand hc)
  · obtain rfl := next_inj (hstep.symm.trans h)
    exact absurd ht (statusAfter_ne_malformedOperand i)

/-- Settles O12: the four fetches of a four-byte sequence succeed, so a MOV decodes; the second clause is the
inversion of a step. -/
theorem everyModeByteIsLegal : Obligations.EveryModeByteIsLegal :=
  ⟨fun _ _ _ _ hb => decodeWith_mov_succeeds (lookupRow_of_mem_movFirstBytes hb) rfl rfl rfl rfl,
    fun _ _ => status_of_step_malformedOperand⟩

/-! ## What decoding depends on -/

/-- A fetch looks at `CS`, `IP`, `IMG_END` and the byte at its own address (R78). -/
theorem fetchByte_congr {s t : State} {k : Nat} (hcs : s.reg .cs = t.reg .cs) (hip : s.reg .ip = t.reg .ip)
    (himg : s.imgEnd = t.imgEnd) (hbyte : s.mem.read (fetchAddr s k) = t.mem.read (fetchAddr s k)) :
    fetchByte s k = fetchByte t k := by
  have haddr : fetchAddr s k = fetchAddr t k := by rw [fetchAddr, fetchAddr, hcs, hip]
  rw [haddr] at hbyte
  rw [fetchByte, fetchByte, haddr, hip, himg, hbyte]

/-- Settles O34: decoding reads at most four bytes, and each of them is fetched alike. -/
theorem decodingIsAFunctionOfTheBytes : Obligations.DecodingIsAFunctionOfTheBytes := by
  intro s t hcs hip himg hbytes
  have hfetch : ∀ k, k < 4 → fetchByte s k = fetchByte t k := fun k hk => fetchByte_congr hcs hip himg <| by
    rw [fetchAddr, hbytes k hk]
  exact decodeWith_congr hfetch

end Sys2Proof.Machine

/-! PROOFS. `FLAGS`: the flag-update logic (R106) and an instruction's independence of `FLAGS` (R107): O25 and O26. -/

namespace Sys2Proof.Machine

/-! ## The flag-update logic -/

/-- The mask `M` has a 1 exactly at the positions of the flags of the set (R106). -/
theorem getLsbD_flagMask (written : List Flag) {k : Nat} (hk : k < 16) :
    (flagMask written).getLsbD k = decide (k ∈ written.map flagBit) := by
  induction written with
  | nil => simp [flagMask]
  | cons f fs ih =>
    have hbit : (1#16 <<< flagBit f).getLsbD k = decide (k = flagBit f) := by
      rw [← BitVec.twoPow_eq, BitVec.getLsbD_twoPow, ← Bool.decide_and, decide_eq_decide]
      omega
    rw [flagMask, BitVec.getLsbD_or, hbit, ih]
    simp

/-- Each bit of the update comes from the new value or from `FLAGS`, as the mask has it (R106). -/
theorem getLsbD_flagUpdate (written : List Flag) (new flags : Word) {k : Nat} (hk : k < 16) :
    (flagUpdate written new flags).getLsbD k =
      if k ∈ written.map flagBit then new.getLsbD k else flags.getLsbD k := by
  rw [flagUpdate, BitVec.getLsbD_or, BitVec.getLsbD_and, BitVec.getLsbD_and, BitVec.getLsbD_not,
    getLsbD_flagMask written hk]
  split
  case isTrue hmem => simp [hmem]
  case isFalse hmem => simp [hmem, hk]

/-- Both rows have an empty set of flags (R65). -/
theorem flagsWritten_of_mem_opcodeTable {row : Descriptor} (h : row ∈ opcodeTable) : row.flagsWritten = [] := by
  revert row; decide

/-- Settles O25: the first clause is the mask read bit by bit; in the second the set of flags is empty. -/
theorem flagUpdateWritesOnlyItsFlags : Obligations.FlagUpdateWritesOnlyItsFlags := by
  refine ⟨fun written new flags k hk => getLsbD_flagUpdate written new flags hk, fun row hrow new flags => ?_⟩
  rw [flagsWritten_of_mem_opcodeTable hrow, flagUpdate_nil]

/-! ## Registers that no instruction uses

What makes `FLAGS` irrelevant is that no operand is taken from it, no address is formed with it, and the flag update
of the commit is the identity (`commit_eq`). The first two are true of `ES` as well (R20) and the third does not touch
it, so the argument is made for both. -/

/-- The registers that no operand names and no address is formed with (R15, R18, R20). -/
def unusedRegs : List Reg := [.flags, .es]

/-- Writes of two registers of the state commute. -/
theorem setReg_comm (s : State) {n k : Reg} (v w : Word) (h : k ≠ n) :
    (s.setReg n v).setReg k w = (s.setReg k w).setReg n v :=
  congrArg (fun rf => { s with regs := rf }) (set_comm s.regs v w h)

/-- A second write of one register of the state replaces the first. -/
@[simp] theorem setReg_setReg_self (s : State) (n : Reg) (v w : Word) :
    (s.setReg n v).setReg n w = s.setReg n w := by
  simp [State.setReg]

theorem setReg_setMem (s : State) (n : Reg) (v : Word) (m : Memory) :
    (s.setReg n v).setMem m = (s.setMem m).setReg n v := rfl

/-- A raised condition leaves another `STATUS` than a completed instruction (R90, R120). -/
theorem status_raise_ne_statusAfter (c : Condition) (s : State) (i : Instr) :
    (raise c s).status ≠ statusAfter i := by
  rw [raise_eq, setStatus_status, statusAfter_eq]
  split
  · exact statusOf_ne_halted c
  · exact statusOf_ne_ready c

section Unused

variable {n : Reg} (hn : n ∈ unusedRegs)
include hn

theorem unused_cases : n = .flags ∨ n = .es := by simpa [unusedRegs] using hn

theorem ip_ne_unused : Reg.ip ≠ n := by
  obtain rfl | rfl := unused_cases hn <;> decide

theorem parentOf_ne_unused (r : Reg8) : parentOf r ≠ n := by
  obtain rfl | rfl := unused_cases hn <;> simp

theorem regOf_ne_unused (r : Reg16) : regOf r ≠ n := by
  obtain rfl | rfl := unused_cases hn <;> simp

/-! ### What is read: the operands and their addresses -/

theorem setReg_unused_reg8 (s : State) (v : Word) (r : Reg8) : (s.setReg n v).reg8 r = s.reg8 r :=
  setReg_reg8_ne s r v (parentOf_ne_unused hn r)

theorem setReg_unused_regOf (s : State) (v : Word) (r : Reg16) :
    (s.setReg n v).reg (regOf r) = s.reg (regOf r) := setReg_reg_ne s v (regOf_ne_unused hn r)

theorem baseValue_set_unused (rf : RegFile) (v : Word) (b : BaseExpr) :
    baseValue (rf.set n v) b = baseValue rf b := by
  obtain rfl | rfl := unused_cases hn <;> cases b <;> rfl

theorem segOf_ne_unused (m : MemOperand) : segOf m ≠ n := by
  have hbase (b : BaseExpr) : segOfBase b ≠ n := by
    obtain rfl | rfl := unused_cases hn <;> cases b <;> decide
  cases m with
  | direct a => obtain rfl | rfl := unused_cases hn <;> simp [segOf]
  | base b => exact hbase b
  | disp8 b d => exact hbase b
  | disp16 b d => exact hbase b

theorem operandAddr_set_unused (rf : RegFile) (v : Word) (m : MemOperand) :
    operandAddr (rf.set n v) m = operandAddr rf m := by
  have heff : effAddr (rf.set n v) m = effAddr rf m := by
    cases m <;> simp [effAddr, baseValue_set_unused hn]
  rw [operandAddr, operandAddr, heff, get_set_ne rf v (segOf_ne_unused hn m)]

/-! ### What is written: the destination and the rest of the commit -/

theorem setReg_unused_setReg8 (s : State) (v : Word) (r : Reg8) (b : Byte) :
    (s.setReg n v).setReg8 r b = (s.setReg8 r b).setReg n v := by
  have hparent : (s.regs.set n v).get (parentOf r) = s.regs.get (parentOf r) :=
    get_set_ne s.regs v (parentOf_ne_unused hn r)
  simp only [State.setReg8, State.setReg, RegFile.set8, hparent, set_comm s.regs v _ (parentOf_ne_unused hn r)]

/-- The destination is written alike, whatever an unused register holds: in each form the value and the address are
read past the write of the unused register, and the destination's write commutes with it. -/
theorem destWritten_setReg_unused {i : Instr} {s u : State} (h : DestWritten s i u) (v : Word) :
    DestWritten (s.setReg n v) i (u.setReg n v) := by
  have haddr (m : MemOperand) : operandAddr (s.setReg n v).regs m = operandAddr s.regs m :=
    operandAddr_set_unused hn s.regs v m
  have hreg8 := setReg_unused_reg8 hn s v
  have hreg16 := setReg_unused_regOf hn s v
  have hset8 := setReg_unused_setReg8 hn s v
  have hset16 (r : Reg16) (w : Word) := setReg_comm s v w (regOf_ne_unused hn r)
  cases h with
  | rm8Reg d r => simpa only [hreg8, hset8] using DestWritten.rm8Reg (s := s.setReg n v) d r
  | rm8Mem m r h =>
    simpa only [haddr, hreg8, setReg_mem, setReg_setMem] using
      DestWritten.rm8Mem (s := s.setReg n v) m r (by rwa [haddr])
  | rm16Reg d r => simpa only [hreg16, hset16] using DestWritten.rm16Reg (s := s.setReg n v) d r
  | rm16Mem m r h =>
    simpa only [haddr, hreg16, setReg_mem, setReg_setMem] using
      DestWritten.rm16Mem (s := s.setReg n v) m r (by rwa [haddr])
  | r8Reg d r => simpa only [hreg8, hset8] using DestWritten.r8Reg (s := s.setReg n v) d r
  | r8Mem d m h =>
    simpa only [haddr, hset8, setReg_mem] using DestWritten.r8Mem (s := s.setReg n v) d m (by rwa [haddr])
  | r16Reg d r => simpa only [hreg16, hset16] using DestWritten.r16Reg (s := s.setReg n v) d r
  | r16Mem d m h =>
    simpa only [haddr, hset16, setReg_mem] using DestWritten.r16Mem (s := s.setReg n v) d m (by rwa [haddr])
  | hlt => exact .hlt

theorem commit_setReg_unused (i : Instr) (new : Word) (s : State) (v : Word) :
    commit i new (s.setReg n v) = (commit i new s).setReg n v := by
  rw [commit_eq, commit_eq, setReg_reg_ne s v (ip_ne_unused hn), setReg_comm s v _ (ip_ne_unused hn)]
  rfl

/-! ### The instruction -/

/-- An instruction that completes does so alike, whatever an unused register holds. -/
theorem exec_setReg_unused_of_destWritten {i : Instr} {s u : State}
    (hip : (s.reg .ip).toNat + i.length ≤ Config.maxOffset) (h : DestWritten s i u) (v : Word) :
    exec i (s.setReg n v) = .next ((commit i 0x0000 u).setReg n v) := by
  have hip' : ((s.setReg n v).reg .ip).toNat + i.length ≤ Config.maxOffset := by
    rwa [setReg_reg_ne s v (ip_ne_unused hn)]
  rw [exec_of_destWritten hip' (destWritten_setReg_unused hn h v), commit_setReg_unused hn]

/-- No instruction completes on one value of an unused register and fails on another: restoring the register's value
would make the failing run complete. -/
theorem exec_setReg_unused_of_raised {i : Instr} {s : State} (h : exec i s = .next (raise .outOfBounds s)) (v : Word) :
    exec i (s.setReg n v) = .next (raise .outOfBounds (s.setReg n v)) := by
  rcases exec_cases i (s.setReg n v) with hraised | ⟨hip, u, hu, -⟩
  · exact hraised
  · have hback := exec_setReg_unused_of_destWritten hn hip hu (s.reg n)
    rw [setReg_setReg_self, setReg_same, h] at hback
    exact absurd (congrArg State.status (next_inj hback)) (status_raise_ne_statusAfter .outOfBounds s i)

/-- Every instruction has a next state, keeps an unused register and does the same whatever stands in it. -/
theorem exec_setReg_unused (i : Instr) (s : State) (v : Word) :
    ∃ t, exec i s = .next t ∧ t.reg n = s.reg n ∧ exec i (s.setReg n v) = .next (t.setReg n v) := by
  rcases exec_cases i s with hraised | ⟨hip, u, hu, hexec⟩
  · exact ⟨_, hraised, rfl, exec_setReg_unused_of_raised hn hraised v⟩
  · refine ⟨_, hexec, ?_, exec_setReg_unused_of_destWritten hn hip hu v⟩
    rw [commit_reg_ne i 0x0000 u (ip_ne_unused hn).symm]
    obtain ⟨-, -, hregs⟩ := destWritten_frame hu
    obtain rfl | rfl := unused_cases hn <;> exact hregs _ (by simp)

end Unused

/-- Settles O26: `FLAGS` is a register that no instruction uses. -/
theorem flagsAreNeitherReadNorWritten : Obligations.FlagsAreNeitherReadNorWritten :=
  fun i s v => exec_setReg_unused (by simp [unusedRegs]) i s v

end Sys2Proof.Machine

/-! PROOFS. The host's commands (R138 to R142, R152): O41. -/

namespace Sys2Proof.Machine

/-- The snapshot reads (R141). -/
def Command.isSnapshotRead : Command → Bool
  | .reset _ | .load _ | .step | .run => false
  | .readReg _ | .readFlag _ | .readByte _ | .readRegion | .readStatus | .readImgEnd => true

/-- A snapshot read is always answered and leaves the whole session as it was (R141). -/
theorem command_snapshotRead {c : Command} (hc : c.isSnapshotRead = true) (q : Session) :
    ∃ r, q.command c = .next (q, r) := by
  cases c with
  | reset | load | step | run => simp [Command.isSnapshotRead] at hc
  | _ => exact ⟨_, rfl⟩

/-- A LOAD after the time for LOAD is refused by name (R152). -/
theorem command_load_refused {q : Session} (h : q.loadAllowed = false) (bytes : List Byte) :
    q.command (.load bytes) = .refused .loadOutsideProtocol := by
  simp [Session.command, h]

/-- The commands that can change the core, where no LOAD is allowed, are RESET, STEP and RUN: any other command that
is answered is a snapshot read (R142, R152). -/
theorem isSnapshotRead_of_command_next {c : Command} {q q' : Session} {r : Reply} (hallowed : q.loadAllowed = false)
    (h : q.command c = .next (q', r)) (hreset : ∀ mem0 : Memory, c ≠ .reset mem0) (hstep : c ≠ .step)
    (hrun : c ≠ .run) : c.isSnapshotRead = true := by
  cases c with
  | reset mem0 => exact absurd rfl (hreset mem0)
  | load bytes => cases (command_load_refused hallowed bytes).symm.trans h
  | step => exact absurd rfl hstep
  | run => exact absurd rfl hrun
  | _ => rfl

/-- Settles O41: the command answered is a snapshot read, and a snapshot read keeps the session. -/
theorem theHostCannotWriteAfterLoad : Obligations.TheHostCannotWriteAfterLoad := by
  intro c q q' r hallowed h hreset hstep hrun
  obtain ⟨r', hread⟩ := command_snapshotRead (isSnapshotRead_of_command_next hallowed h hreset hstep hrun) q
  obtain ⟨rfl, -⟩ := Prod.mk.inj (Host.Outcome.next.inj (h.symm.trans hread))
  rfl

end Sys2Proof.Machine

/-! PROOFS. The encoding (R60 to R79): the two round trips, the length table, the fields of the record, the code table
and the refused first bytes: O3, O9, O10, O11, O13, O14 and O15. -/

namespace Sys2Proof.Machine

/-! ## The round trips -/

/-- A well-formed instruction has as many bytes as the length formula says, 1 to 4 (R60, R72). -/
theorem encode_length_and_bounds (i : Instr) (h : i.wellFormed = true) :
    (encode i).length = i.length ∧ 1 ≤ i.length ∧ i.length ≤ 4 := by
  cases i with
  | movRm8R8 dst src => exact Laws.EncodedLength.movRm8R8 dst src h
  | movRm16R16 dst src => exact Laws.EncodedLength.movRm16R16 dst src h
  | movR8Rm8 dst src => exact Laws.EncodedLength.movR8Rm8 dst src h
  | movR16Rm16 dst src => exact Laws.EncodedLength.movR16Rm16 dst src h
  | hlt => exact Laws.EncodedLength.hlt h

theorem encode_length {i : Instr} (h : i.wellFormed = true) : (encode i).length = i.length :=
  (encode_length_and_bounds i h).1

/-- Byte `k` of a sequence is fetched exactly where it stands there. -/
theorem byteAt_eq_ok_iff {bs : List Byte} {k : Nat} {b : Byte} : byteAt bs k = .ok b ↔ bs[k]? = some b := by
  cases hb : bs[k]? with
  | none => simp [byteAt, hb]
  | some c => simp [byteAt, hb]

/-- Settles O9: the fetches from `encode i ++ rest` give the bytes of `encode i`, which decode to `i`. -/
theorem decodeOfEncode : Obligations.DecodeOfEncode := by
  intro i rest hwf
  have hfetch : ∀ (k : Nat) (hk : k < (encode i).length), byteAt (encode i ++ rest) k = .ok (encode i)[k] :=
    fun k hk => byteAt_eq_ok_iff.mpr (by rw [List.getElem?_append_left hk, List.getElem?_eq_getElem hk])
  exact ⟨decodeWith_of_bytes hwf hfetch, encode_length hwf⟩

/-- Settles O10: every byte of the encoding is the byte fetched at that index, so the sequence begins with it. -/
theorem encodeOfDecode : Obligations.EncodeOfDecode := by
  intro bs i h
  obtain ⟨hwf, hfetch⟩ := decodeWith_ok h
  have hbegins : encode i <+: bs :=
    List.prefix_iff_getElem?.mpr fun k hk => byteAt_eq_ok_iff.mp (hfetch k hk)
  obtain ⟨rest, hrest⟩ := hbegins
  exact ⟨hwf, rest, hrest.symm⟩

/-! ## The fields of a decoded MOV -/

/-- The record of a MOV, by its D and W bits, its REG code and its R/M operand (R23, R61). -/
theorem record_movOf (d w : Bool) (reg : BitVec 3) (x : RegMem (BitVec 3)) :
    (movOf d w reg x).record =
      { mnemonic := .mov, d := d, w := w, mode := some (x.mod, reg, x.rm id), dispSize := dispSizeOf x.mod (x.rm id),
        disp := x.disp, immSize := 0, length := 2 + dispSizeOf x.mod (x.rm id) } := by
  have hdisp {ρ : Type} (f : BitVec 3 → ρ) : (x.map f).disp = x.disp := by cases x <;> rfl
  cases d <;> cases w <;>
    simp [movOf, Instr.record, Instr.descriptor, movRow, Instr.d, Instr.w, Instr.mode, Instr.dispSize, Instr.disp,
      Descriptor.immSize, Instr.length, code8_comp_ofCode, code16_comp_ofCode, hdisp]

/-- The value of a sign-extended byte (R4, R68). -/
theorem toNat_sext16 (b : Byte) : (sext16 b).toNat = if b.toNat < 0x80 then b.toNat else 0xFF00 + b.toNat := by
  revert b; decide

section DecodeRm

variable {f : Nat → Except Condition Byte} {rm : BitVec 3}

theorem decodeRm_reg : decodeRm f 0b11#2 rm = .ok (.reg rm) := rfl

theorem decodeRm_base (h : rm ≠ 0b110#3) : decodeRm f 0b00#2 rm = .ok (.mem (.base (BaseExpr.ofCode rm))) := by
  simp [decodeRm, h]

theorem fetchWordAt_ok {k : Nat} {lo hi : Byte} (hlo : f k = .ok lo) (hhi : f (k + 1) = .ok hi) :
    fetchWordAt f k = .ok (wordOf lo hi) := by
  simp [fetchWordAt, hlo, hhi]

theorem decodeRm_direct {d0 d1 : Byte} (h2 : f 2 = .ok d0) (h3 : f 3 = .ok d1) :
    decodeRm f 0b00#2 0b110#3 = .ok (.mem (.direct (wordOf d0 d1))) := by
  simp [decodeRm, fetchWordAt_ok h2 h3]

theorem decodeRm_disp8 {d0 : Byte} (h2 : f 2 = .ok d0) :
    decodeRm f 0b01#2 rm = .ok (.mem (.disp8 (BaseExpr.ofCode rm) d0)) := by
  simp [decodeRm, h2]

theorem decodeRm_disp16 {d0 d1 : Byte} (h2 : f 2 = .ok d0) (h3 : f 3 = .ok d1) :
    decodeRm f 0b10#2 rm = .ok (.mem (.disp16 (BaseExpr.ofCode rm) (wordOf d0 d1))) := by
  simp [decodeRm, fetchWordAt_ok h2 h3]

end DecodeRm

/-- The record of a decoded MOV holds the fields of its first two bytes and the displacement of its R/M operand. -/
theorem record_of_decode_mov {b0 b1 d0 d1 : Byte} {i : Instr} (hb0 : b0 ∈ [0x88#8, 0x89#8, 0x8A#8, 0x8B#8])
    (h : decode [b0, b1, d0, d1] = .ok i) :
    ∃ x, decodeRm (byteAt [b0, b1, d0, d1]) (modField b1) (rmField b1) = .ok x ∧
      i.record =
        { mnemonic := .mov, d := dBit b0, w := wBit b0, mode := some (modField b1, regField b1, rmField b1),
          dispSize := dispSizeOf (modField b1) (rmField b1), disp := x.disp, immSize := 0,
          length := 2 + dispSizeOf (modField b1) (rmField b1) } := by
  rw [decode, decodeWith_mov rfl (lookupRow_of_mem_movFirstBytes hb0)] at h
  simp only [byteAt, List.getElem?_cons_succ, List.getElem?_cons_zero] at h
  cases hrm : decodeRm (byteAt [b0, b1, d0, d1]) (modField b1) (rmField b1) with
  | error c => simp [hrm] at h
  | ok x =>
    obtain ⟨-, hmod, hcode, -⟩ := decodeRm_ok hrm
    refine ⟨x, rfl, ?_⟩
    have hi : movOf (dBit b0) (wBit b0) (regField b1) x = i := by simpa [hrm] using h
    rw [← hi, record_movOf, hmod, hcode]

/-- Settles O13: the record holds the fields of the two bytes, and in each row of R67 the R/M operand is known. -/
theorem decodedFieldsAreTheEncodedBits : Obligations.DecodedFieldsAreTheEncodedBits := by
  intro b0 b1 d0 d1 i hb0 hi
  obtain ⟨x, hx, hrecord⟩ := record_of_decode_mov hb0 hi
  have h2 : byteAt [b0, b1, d0, d1] 2 = .ok d0 := rfl
  have h3 : byteAt [b0, b1, d0, d1] 3 = .ok d1 := rfl
  simp only [modField, rmField] at hx hrecord
  rw [hrecord]
  refine ⟨rfl, rfl, rfl, rfl, fun hmod => ?_, fun hmod hrm => ?_, fun hmod hrm => ?_, fun hmod => ?_, fun hmod => ?_⟩
  · rw [hmod, decodeRm_reg] at hx
    cases hx
    simp [hmod, dispSizeOf, RegMem.disp]
  · rw [hmod, decodeRm_base hrm] at hx
    cases hx
    simp [hmod, hrm, dispSizeOf, RegMem.disp, MemOperand.disp]
  · rw [hmod, hrm, decodeRm_direct h2 h3] at hx
    cases hx
    simp [hmod, hrm, dispSizeOf, RegMem.disp, MemOperand.disp, wordOf]
  · rw [hmod, decodeRm_disp8 h2] at hx
    cases hx
    simp [hmod, dispSizeOf, RegMem.disp, MemOperand.disp, toNat_sext16]
  · rw [hmod, decodeRm_disp16 h2 h3] at hx
    cases hx
    simp [hmod, dispSizeOf, RegMem.disp, MemOperand.disp, wordOf]

/-- Settles O11: the length is 2 and the number of displacement bytes, which MOD and R/M alone decide. -/
theorem instructionLengthTable : Obligations.InstructionLengthTable := by
  refine ⟨fun b0 b1 d0 d1 i hb0 hi => ?_, rfl⟩
  obtain ⟨x, -, hrecord⟩ := record_of_decode_mov hb0 hi
  have hlength : i.length = 2 + dispSizeOf (b1.extractLsb' 6 2) (b1.extractLsb' 0 3) :=
    congrArg Record.length hrecord
  rw [hlength]
  refine ⟨fun hmod => ?_, fun hmod hrm => ?_, fun hmod => ?_, fun hmod => ?_, fun hmod hrm => ?_⟩
  · simp [dispSizeOf, hmod]
  · simp [dispSizeOf, hmod, hrm]
  · simp [dispSizeOf, hmod]
  · simp [dispSizeOf, hmod]
  · simp [dispSizeOf, hmod, hrm]

/-! ## Single bytes and codes -/

/-- Settles O15: such a first byte selects no row, so nothing after it is looked at. -/
theorem otherFirstBytesAreUnsupported : Obligations.OtherFirstBytesAreUnsupported :=
  fun b0 _ hb0 => decodeWith_unsupported rfl (lookupRow_eq_none b0 hb0)

/-- Settles O14: each word is read by the decoder itself. -/
theorem wordsOfTheSpecDecode : Obligations.WordsOfTheSpecDecode :=
  ⟨rfl, rfl, rfl, rfl, rfl, rfl⟩

/-- Settles O3: the eight rows of the code table, one by one. -/
theorem registerCodeTable : Obligations.RegisterCodeTable := by
  unfold Obligations.RegisterCodeTable
  decide

end Sys2Proof.Machine

/-! PROOFS. The memory array: the word access primitives (R47, R48), the canonical form (R40) and LOAD (R58): O5, O6
and O7. -/

namespace Sys2Proof.Machine

/-- A word write inside the array is the two stores alone (R48). -/
theorem memWrite16_ok (m : Memory) {pa : Nat} (v : Word) (h : pa + 1 < Config.memSize) :
    memWrite16 m pa v = .ok (m.write16 pa v) := by
  rw [memWrite16, checkWrite16_ok h]

/-- A word write whose second byte lies outside the array raises `OutOfBounds` (R44, R48). -/
theorem memWrite16_error (m : Memory) {pa : Nat} (v : Word) (h : Config.memSize ≤ pa + 1) :
    memWrite16 m pa v = .error .outOfBounds := by
  rw [memWrite16, checkWrite16_error h]

/-- A word is read back from the address it was written to (R47, R48). -/
theorem memRead16_write16 {m : Memory} {pa : Nat} (v : Word) (hm : m.wf = true) (h : pa + 1 < Config.memSize) :
    memRead16 (m.write16 pa v) pa = .ok v := by
  rw [memRead16_ok _ h, read_write16_lo pa v hm, read_write16_hi v hm (by omega), wordOf_loByte_hiByte]

/-- Settles O5: the bounds check of the second byte decides each access; where it passes, the memory written is
`m.write16 pa v`, which is canonical and is read by the laws of the word write. -/
theorem wordAccessPrimitives : Obligations.WordAccessPrimitives := by
  intro m pa v hm
  refine ⟨fun hout => ⟨memRead16_error m hout, memWrite16_error m v hout⟩,
    fun hin => ⟨memRead16_ok m hin, m.write16 pa v, memWrite16_ok m v hin, ?canonical, ?low, ?high, ?others, ?back⟩⟩
  case canonical => exact wf_write16 v hm hin
  case low => exact read_write16_lo pa v hm
  case high => exact read_write16_hi v hm (Nat.lt_of_succ_lt hin)
  case others =>
    intro a ha
    unfold outsideAccess at ha
    exact read_write16_ne m v (by omega) (by omega)
  case back => exact memRead16_write16 v hm hin

/-- Settles O6: past the array both lists read as an unlisted address does, so they read the same everywhere. -/
theorem memoryListsAreCanonical : Obligations.MemoryListsAreCanonical := by
  intro m n hm hn hread
  refine ext_wfFrom hm hn fun a => ?_
  rcases Nat.lt_or_ge a Config.memSize with hin | hout
  · exact hread a hin
  · rw [read_past hm hout, read_past hn hout]

/-- `IMG_END` holds the length of every image that fits (R22, R58). -/
theorem toNat_imgEnd {n : Nat} (h : n ≤ Config.memSize) : (BitVec.ofNat 21 (Config.imgOrigin + n)).toNat = n := by
  simp only [Config.memSize] at h
  simp only [Config.imgOrigin, BitVec.toNat_ofNat]
  omega

/-- Settles O7: the copy from address 0 is read inside and outside the image by the laws of `writeAll`. -/
theorem loadCopiesTheImage : Obligations.LoadCopiesTheImage := by
  intro bytes s hm
  refine ⟨load_error s, fun hfits => ?_⟩
  have hend : Config.imgOrigin + bytes.length ≤ Config.memSize := (Nat.zero_add _).trans_le hfits
  refine ⟨_, load_ok s hfits, wf_writeAll bytes hm hend, ?image, ?others, toNat_imgEnd hfits, rfl, rfl⟩
  case image =>
    intro k hk
    simpa [Config.imgOrigin] using read_writeAll_inside bytes hm hend hk
  case others => exact fun a ha => read_writeAll_outside s.mem bytes (.inr ((Nat.zero_add _).trans_le ha))

end Sys2Proof.Machine

/-! PROOFS. The physical address of a memory operand (R95 to R98): O16. -/

namespace Sys2Proof.Machine

/-- The segment register is `SS` where the base expression holds `BP` (R97). -/
theorem segOfBase_eq {b : BaseExpr} {rs : List Reg} (h : (b, rs) ∈ baseRegisters) :
    segOfBase b = if Reg.bp ∈ rs then .ss else .ds := by
  have hrows : ∀ row ∈ baseRegisters, segOfBase row.1 = if Reg.bp ∈ row.2 then .ss else .ds := by decide
  exact hrows (b, rs) h

/-- The base sum is reduced modulo 2^16 (R95). -/
theorem toNat_baseValue (rf : RegFile) {b : BaseExpr} {rs : List Reg} (h : (b, rs) ∈ baseRegisters) :
    (baseValue rf b).toNat = (rs.map fun r => (rf.get r).toNat).sum % 0x10000 := by
  have hmod (r : Reg) : (rf.get r).toNat % 0x10000 = (rf.get r).toNat := Nat.mod_eq_of_lt (rf.get r).isLt
  have hrows : ∀ row ∈ baseRegisters,
      (baseValue rf row.1).toNat = (row.2.map fun r => (rf.get r).toNat).sum % 0x10000 := by
    simp [baseRegisters, baseValue, BitVec.toNat_add, hmod]
  exact hrows (b, rs) h

/-- A displacement is added to the base sum before the one reduction modulo 2^16 (R95). -/
theorem toNat_baseValue_add (rf : RegFile) {b : BaseExpr} {rs : List Reg} (h : (b, rs) ∈ baseRegisters) (d : Word) :
    (baseValue rf b + d).toNat = ((rs.map fun r => (rf.get r).toNat).sum + d.toNat) % 0x10000 := by
  rw [BitVec.toNat_add, toNat_baseValue rf h, Nat.mod_add_mod]

/-- Settles O16: the table of base registers gives the base sum and the segment of each base expression, and the
displacement is added before the one reduction modulo 2^16. -/
theorem operandAddressTable : Obligations.OperandAddressTable := by
  refine ⟨fun rf a => rfl, fun b rs hb rf d8 d16 => ?_⟩
  rw [← segOfBase_eq hb]
  refine ⟨?base, ?disp8, ?disp16⟩
  case base => rw [← toNat_baseValue rf hb]; rfl
  case disp8 => rw [← toNat_sext16, ← toNat_baseValue_add rf hb]; rfl
  case disp16 => rw [← toNat_baseValue_add rf hb]; rfl

end Sys2Proof.Machine

/-! PROOFS. What an instruction does, where it completes (R111 to R118), where it raises `OutOfBounds` (R91, R123), what
it leaves alone, and that its store is seen by the next fetch (R56): O17 to O24 and O35. -/

namespace Sys2Proof.Machine

/-! ## Completion -/

/-- A MOV is as long as its two bytes and its displacement bytes (R72). -/
theorem length_of_fields {i : Instr} {reg : BitVec 3} {x : RegMem (BitVec 3)} (hx : i.fields = some (reg, x))
    (hwf : x.wellFormed = true) : i.length = 2 + x.dispBytes.length := by
  have hi : i.wellFormed = true := by rw [fields_wellFormed i reg x hx, hwf]
  rw [← encode_length hi, encode_mov i reg x hx, List.length_cons, List.length_cons]
  omega

/-- The commit of a MOV whose destination is written (R17, R90). -/
theorem commit_mov {i : Instr} {reg : BitVec 3} {x : RegMem (BitVec 3)} (hx : i.fields = some (reg, x))
    (hwf : x.wellFormed = true) (new : Word) (u : State) :
    commit i new u = moved u (2 + x.dispBytes.length) := by
  have hmov : i ≠ .hlt := by rintro rfl; cases hx
  rw [commit_eq, length_of_fields hx hwf, statusAfter_eq, if_neg hmov, moved]

/-- A MOV of `len` bytes below the `IP` limit, whose operand lies in the array, completes with its destination
written. -/
theorem exec_mov {i : Instr} {reg : BitVec 3} {x : RegMem (BitVec 3)} {s u : State} {len : Nat}
    (hu : DestWritten s i u) (hx : i.fields = some (reg, x)) (hwf : x.wellFormed = true)
    (hlen : 2 + x.dispBytes.length = len) (hip : (s.reg .ip).toNat + len ≤ 0xFFFF) :
    exec i s = .next (moved u len) := by
  subst hlen
  rw [exec_of_destWritten (by rwa [length_of_fields hx hwf]) hu, commit_mov hx hwf]

/-- Settles O17: each form writes its destination, and a MOV completes with its destination written. -/
theorem movRm8R8Completes : Obligations.MovRm8R8Completes :=
  ⟨fun d r _ hip => exec_mov (.rm8Reg d r) rfl rfl rfl hip,
    fun m r _ hwf hip hpa => exec_mov (.rm8Mem m r hpa) rfl hwf rfl hip⟩

/-- Settles O18: as O17; the word store is the store of its two bytes. -/
theorem movRm16R16Completes : Obligations.MovRm16R16Completes :=
  ⟨fun d r _ hip => exec_mov (.rm16Reg d r) rfl rfl rfl hip,
    fun m r _ hwf hip hpa => exec_mov (.rm16Mem m r hpa) rfl hwf rfl hip⟩

/-- Settles O19: as O17, with the destination a register in both forms. -/
theorem movR8Rm8Completes : Obligations.MovR8Rm8Completes :=
  ⟨fun d r _ hip => exec_mov (.r8Reg d r) rfl rfl rfl hip,
    fun d m _ hwf hip hpa => exec_mov (.r8Mem d m hpa) rfl hwf rfl hip⟩

/-- Settles O20: as O19; the word read is its two bytes, the high one from the next address. -/
theorem movR16Rm16Completes : Obligations.MovR16Rm16Completes :=
  ⟨fun d r _ hip => exec_mov (.r16Reg d r) rfl rfl rfl hip,
    fun d m _ hwf hip hpa => exec_mov (.r16Mem d m hpa) rfl hwf rfl hip⟩

/-- Settles O21: HLT has no destination; its commit advances `IP` by its one byte and sets `HALTED`. -/
theorem hltCompletes : Obligations.HltCompletes := by
  refine ⟨fun s hip => ?_, encode_hlt⟩
  rw [exec_of_destWritten (i := .hlt) hip .hlt, commit_eq]
  rfl

/-! ## Failure -/

/-- The inversion of an execution: `OutOfBounds` is raised, or the destination is written and committed. -/
theorem cases_of_exec_next {i : Instr} {s t : State} (h : exec i s = .next t) :
    t = raise .outOfBounds s ∨
    (s.reg .ip).toNat + i.length ≤ Config.maxOffset ∧ ∃ u, DestWritten s i u ∧ t = commit i 0x0000 u := by
  rcases exec_cases i s with hraised | ⟨hip, u, hu, hexec⟩
  · exact .inl (next_inj (h.symm.trans hraised))
  · exact .inr ⟨hip, u, hu, next_inj (h.symm.trans hexec)⟩

/-- An instruction that cannot complete raises `OutOfBounds`. -/
theorem exec_raises {i : Instr} {s : State}
    (h : ∀ u, (s.reg .ip).toNat + i.length ≤ Config.maxOffset → ¬ DestWritten s i u) :
    exec i s = .next (s.setStatus .outOfBounds) := by
  rcases exec_cases i s with hraised | ⟨hip, u, hu, -⟩
  · exact hraised
  · exact absurd hu (h u hip)

/-- Settles O22: past the `IP` limit nothing completes, and a form with a memory operand writes its destination only
where the operand lies in the array. -/
theorem execRaisesOutOfBounds : Obligations.ExecRaisesOutOfBounds := by
  refine ⟨fun i s hwf hlimit => exec_raises fun u hip => ?_,
    fun m r s hout => ⟨exec_raises fun u _ hu => ?_, exec_raises fun u _ hu => ?_⟩,
    fun m r s hout => ⟨exec_raises fun u _ hu => ?_, exec_raises fun u _ hu => ?_⟩⟩
  · rw [encode_length hwf] at hlimit
    exact absurd hlimit (Nat.not_lt.mpr hip)
  · cases hu with
    | rm8Mem _ _ hin => exact absurd hout (Nat.not_le.mpr hin)
  · cases hu with
    | r8Mem _ _ hin => exact absurd hout (Nat.not_le.mpr hin)
  · cases hu with
    | rm16Mem _ _ hin => exact absurd hout (Nat.not_le.mpr hin)
  · cases hu with
    | r16Mem _ _ hin => exact absurd hout (Nat.not_le.mpr hin)

/-! ## Frames -/

/-- A form that stores nothing writes no more than the register its destination lies in. -/
theorem destWritten_of_storesNothing {i : Instr} {dst : Option Reg} {s u : State} (hi : StoresNothing i dst)
    (hu : DestWritten s i u) : u.mem = s.mem ∧ ∀ n, dst ≠ some n → u.reg n = s.reg n := by
  have hne {p n : Reg} (h : some p ≠ some n) : n ≠ p := fun hnp => h (congrArg some hnp.symm)
  cases hi with
  | movRm8R8 d r => cases hu; exact ⟨rfl, fun n hn => setReg8_reg_ne s _ (hne hn)⟩
  | movRm16R16 d r => cases hu; exact ⟨rfl, fun n hn => setReg_reg_ne s _ (hne hn)⟩
  | movR8Rm8 d src => cases hu <;> exact ⟨rfl, fun n hn => setReg8_reg_ne s _ (hne hn)⟩
  | movR16Rm16 d src => cases hu <;> exact ⟨rfl, fun n hn => setReg_reg_ne s _ (hne hn)⟩
  | hlt => cases hu; exact ⟨rfl, fun n _ => rfl⟩

theorem setReg8_reg8_ne (s : State) {n k : Reg8} (v : Byte) (h : k ≠ n) : (s.setReg8 n v).reg8 k = s.reg8 k :=
  (get8_set8 s.regs n k v).trans (if_neg h)

/-- What neither a raised condition nor the commit of the written destination changes, an execution keeps. -/
theorem exec_keeps {i : Instr} {s t : State} (h : exec i s = .next t) {α : Type} (view : State → α)
    (hraise : view (raise .outOfBounds s) = view s)
    (hcommit : ∀ u, DestWritten s i u → view (commit i 0x0000 u) = view s) : view t = view s := by
  rcases cases_of_exec_next h with rfl | ⟨-, u, hu, rfl⟩
  · exact hraise
  · exact hcommit u hu

theorem exec_imgEnd {i : Instr} {s t : State} (h : exec i s = .next t) : t.imgEnd = s.imgEnd :=
  exec_keeps h State.imgEnd rfl fun _ hu => (destWritten_frame hu).2.1

/-- A register other than `IP` that the write of the destination keeps is kept. -/
theorem exec_reg {i : Instr} {s t : State} (h : exec i s = .next t) {n : Reg} (hn : n ≠ .ip)
    (hwrite : ∀ u, DestWritten s i u → u.reg n = s.reg n) : t.reg n = s.reg n :=
  exec_keeps h (fun v => v.reg n) rfl fun u hu => (commit_reg_ne i 0x0000 u hn).trans (hwrite u hu)

/-- Settles O23: a form that stores nothing writes one register, and an 8-bit write one sub-register. -/
theorem registerFormsFrame : Obligations.RegisterFormsFrame := by
  refine ⟨fun i dst s t hi h => ?_, fun d r src s t h k hk => ?_⟩
  · have hmem : t.mem = s.mem := exec_keeps h State.mem rfl fun u hu => (destWritten_of_storesNothing hi hu).1
    refine ⟨fun a => by rw [hmem], hmem, exec_imgEnd h, fun n hip hn => exec_reg h hip fun u hu => ?_⟩
    exact (destWritten_of_storesNothing hi hu).2 n hn
  · have hkeeps {i : Instr} (hexec : exec i s = .next t) (hwrite : ∀ u, DestWritten s i u → ∃ v, u = s.setReg8 d v) :
        t.reg8 k = s.reg8 k := by
      refine exec_keeps hexec (fun v => v.reg8 k) rfl fun u hu => (commit_reg8 i 0x0000 u k).trans ?_
      obtain ⟨v, rfl⟩ := hwrite u hu
      exact setReg8_reg8_ne s v hk
    rcases h with h | h
    · exact hkeeps h fun u hu => by cases hu; exact ⟨_, rfl⟩
    · exact hkeeps h fun u hu => by cases hu <;> exact ⟨_, rfl⟩

/-- Settles O24: a storing form writes its destination in memory and no register. -/
theorem memoryFormsFrame : Obligations.MemoryFormsFrame := by
  refine ⟨fun m r s t h => ⟨fun a ha => ?_, fun n hn => ?_, exec_imgEnd h⟩,
    fun m r s t h => ⟨fun a ha => ?_, fun n hn => ?_, exec_imgEnd h⟩⟩
  · refine exec_keeps h (fun v => v.mem.read a) rfl fun u hu => ?_
    cases hu
    unfold outsideAccess at ha
    exact read_write_ne s.mem _ (by omega)
  · exact exec_reg h hn fun u hu => by cases hu; rfl
  · refine exec_keeps h (fun v => v.mem.read a) rfl fun u hu => ?_
    cases hu
    unfold outsideAccess at ha
    exact read_write16_ne s.mem _ (by omega) (by omega)
  · exact exec_reg h hn fun u hu => by cases hu; rfl

/-! ## Stores and the fetches after them -/

/-- An instruction that leaves `READY` has completed. -/
theorem destWritten_of_exec_ready {i : Instr} {s t : State} (h : exec i s = .next t) (ht : t.status = .ready) :
    ∃ u, DestWritten s i u ∧ t = commit i 0x0000 u := by
  rcases cases_of_exec_next h with rfl | ⟨-, hcompleted⟩
  · exact absurd ht (statusOf_ne_ready .outOfBounds)
  · exact hcompleted

/-- Settles O35: the byte fetched is the one memory holds there, and that is the byte stored. -/
theorem storesAreSeenByTheNextFetch : Obligations.StoresAreSeenByTheNextFetch := by
  refine ⟨fun m r s t k b hm h ht hb haddr => ?_, fun m r s t k b hm h ht hb => ?_⟩
  · obtain ⟨u, hu, rfl⟩ := destWritten_of_exec_ready h ht
    cases hu
    rw [fetchByte_value hb, haddr]
    exact read_write_self _ _ hm
  · obtain ⟨u, hu, rfl⟩ := destWritten_of_exec_ready h ht
    cases hu with
    | rm16Mem _ _ hin =>
      refine ⟨fun haddr => ?_, fun haddr => ?_⟩
      · rw [fetchByte_value hb, haddr]
        exact read_write16_lo _ _ hm
      · rw [fetchByte_value hb, haddr]
        exact read_write16_hi _ hm (Nat.lt_of_succ_lt hin)

end Sys2Proof.Machine

/-! PROOFS. The fetch and the step (R78, R90, R104, R122, R126, R131), and what every step keeps (R15, R17, R20): O27 to
O33 and O36. -/

namespace Sys2Proof.Machine

/-! ## The fetch -/

/-- Settles O28: each clause is one check of the fetch. -/
theorem fetchByteChecks : Obligations.FetchByteChecks := by
  rintro s k pa rfl
  exact ⟨fetchByte_offset, fetchByte_past, fetchByte_ranOff, fetchByte_ok⟩

/-- Settles O27: every byte of the instruction is fetched, so the instruction is decoded. -/
theorem stepRunsTheDecodedInstruction : Obligations.StepRunsTheDecodedInstruction := by
  intro i s hwf hready hoff hmem himg hbytes
  refine step_of_ok hready (decodeWith_of_bytes hwf fun k hk => ?_)
  have haddr : fetchAddr s k = (s.reg .cs).toNat * 16 + (s.reg .ip).toNat + k := (Nat.add_assoc _ _ _).symm
  have hbyte : s.mem.read (fetchAddr s k) = (encode i)[k] := by rw [haddr, hbytes k hk]
  rw [← hbyte]
  refine fetchByte_ok ?_ ?_ ?_
  · simp only [Config.maxOffset]; omega
  · simp only [Config.memSize]; omega
  · omega

/-- Settles O29: the decoding ends with the condition of the fetch that fails. -/
theorem failedFetchEndsTheStep : Obligations.FailedFetchEndsTheStep :=
  fun _ _ _ _ hwf hready hk hbytes hfail => step_of_error hready (decodeWith_of_failed_fetch hwf hk hbytes hfail)

/-- Settles O30: the decoding ends at a first byte that selects no row. -/
theorem unsupportedOpcodeEndsTheStep : Obligations.UnsupportedOpcodeEndsTheStep :=
  fun _ b0 hready hfetch hb0 => step_of_error hready (decodeWith_unsupported hfetch (lookupRow_eq_none b0 hb0))

/-- Settles O31: STEP looks at `STATUS` first. -/
theorem terminalStatesAreSticky : Obligations.TerminalStatesAreSticky := fun _ => step_of_not_ready

/-! ## The completed step -/

/-- A completed instruction leaves `READY` or `HALTED` (R90). -/
theorem statusAfter_ready_or_halted (i : Instr) : statusAfter i = .ready ∨ statusAfter i = .halted := by
  rw [statusAfter_eq]
  split
  · exact .inr rfl
  · exact .inl rfl

/-- What the commit of a written destination leaves (R15, R17, R90). -/
theorem commit_of_destWritten {i : Instr} {s u : State} (hip : (s.reg .ip).toNat + i.length ≤ Config.maxOffset)
    (hu : DestWritten s i u) :
    ((commit i 0x0000 u).reg .ip).toNat = (s.reg .ip).toNat + i.length ∧
    (commit i 0x0000 u).imgEnd = s.imgEnd ∧
    ∀ n ∈ [Reg.flags, .cs, .ds, .es, .ss], (commit i 0x0000 u).reg n = s.reg n := by
  obtain ⟨-, himg, hregs⟩ := destWritten_frame hu
  have hip' : u.reg .ip = s.reg .ip := hregs .ip (by simp)
  refine ⟨?_, himg, fun n hn => ?_⟩
  · rw [commit_ip i 0x0000 u (by rwa [hip']), hip']
  · have hne : n ≠ .ip := by rintro rfl; simp at hn
    rw [commit_reg_ne i 0x0000 u hne, hregs n (List.mem_cons_of_mem _ hn)]

/-- Settles O32: a step raises a condition, or it commits the instruction decoded at `CS:IP`. -/
theorem stepIsAllOrNothing : Obligations.StepIsAllOrNothing := by
  intro s hready
  rcases step_cases s with ⟨hnot, -⟩ | ⟨-, c, -, hstep⟩ | ⟨-, i, u, hi, hip, hu, hstep⟩
  · exact absurd hready hnot
  · exact .inl ⟨c, hstep⟩
  · obtain ⟨hadvance, -, hregs⟩ := commit_of_destWritten hip hu
    refine .inr ⟨i, _, hi, hstep, (step_of_ok hready hi).symm.trans hstep, statusAfter_ready_or_halted i, ?_, hadvance,
      hregs .flags (by simp)⟩
    rw [commit_status, statusAfter_eq]
    simp

/-- Settles O33: a completed step advances `IP` by the length of a well-formed instruction; a condition changes
`STATUS` alone, and leaves neither `READY` nor `HALTED`. -/
theorem instructionPointerAdvances : Obligations.InstructionPointerAdvances := by
  intro s t hready h
  rcases stepIsAllOrNothing s hready with ⟨c, hstep⟩ | ⟨i, t', hi, hstep, -, hstatus, -, hadvance, -⟩
  · obtain rfl := next_inj (hstep.symm.trans h)
    refine ⟨fun hdone => ?_, fun _ _ => rfl⟩
    simp at hdone
  · obtain rfl := next_inj (hstep.symm.trans h)
    refine ⟨fun _ => ?_, fun hnr hnh => ?_⟩
    · obtain ⟨-, hmin, hmax⟩ := encode_length_and_bounds i (decodeWith_ok hi).1
      omega
    · exact absurd hstatus (not_or.mpr ⟨hnr, hnh⟩)

/-! ## What every step keeps -/

/-- Every state has a next state. -/
theorem step_next (s : State) : ∃ t, step s = .next t := by
  rcases step_cases s with ⟨-, hstep⟩ | ⟨-, c, -, hstep⟩ | ⟨-, i, u, -, -, -, hstep⟩
  · exact ⟨_, hstep⟩
  · exact ⟨_, hstep⟩
  · exact ⟨_, hstep⟩

/-- The inversion of a step: a terminal state stays, a condition is raised, or a destination is written and
committed. -/
theorem cases_of_step_next {s t : State} (h : step s = .next t) :
    (s.status ≠ .ready ∧ t = s) ∨ (s.status = .ready ∧ ∃ c, t = raise c s) ∨
    (s.status = .ready ∧ ∃ i u, (s.reg .ip).toNat + i.length ≤ Config.maxOffset ∧ DestWritten s i u ∧
      t = commit i 0x0000 u) := by
  rcases step_cases s with ⟨hnot, hstep⟩ | ⟨hready, c, -, hstep⟩ | ⟨hready, i, u, -, hip, hu, hstep⟩
  · exact .inl ⟨hnot, next_inj (h.symm.trans hstep)⟩
  · exact .inr (.inl ⟨hready, c, next_inj (h.symm.trans hstep)⟩)
  · exact .inr (.inr ⟨hready, i, u, hip, hu, next_inj (h.symm.trans hstep)⟩)

/-- No step writes `FLAGS`, a segment register or `IMG_END` (R15, R20). -/
theorem step_frame {s t : State} (h : step s = .next t) :
    t.imgEnd = s.imgEnd ∧ ∀ n ∈ [Reg.flags, .cs, .ds, .es, .ss], t.reg n = s.reg n := by
  rcases cases_of_step_next h with ⟨-, rfl⟩ | ⟨-, c, rfl⟩ | ⟨-, i, u, hip, hu, rfl⟩
  · exact ⟨rfl, fun _ _ => rfl⟩
  · exact ⟨rfl, fun _ _ => rfl⟩
  · exact (commit_of_destWritten hip hu).2

/-- Every step keeps the canonical form of memory. -/
theorem step_memWf {s t : State} (h : step s = .next t) (hm : s.mem.wf = true) : t.mem.wf = true := by
  rcases cases_of_step_next h with ⟨-, rfl⟩ | ⟨-, c, rfl⟩ | ⟨-, i, u, -, hu, rfl⟩
  · exact hm
  · exact hm
  · rw [commit_mem]
    exact destWritten_wf hu hm

/-- Decoding does not look at `ES` (R20, R80). -/
theorem fetchInstr_setReg_es (s : State) (v : Word) : fetchInstr (s.setReg .es v) = fetchInstr s :=
  decodingIsAFunctionOfTheBytes (s.setReg .es v) s rfl rfl rfl fun _ _ => rfl

/-- A step does the same whatever stands in `ES` (R20). -/
theorem step_setReg_es {s t : State} (h : step s = .next t) (v : Word) :
    step (s.setReg .es v) = .next (t.setReg .es v) := by
  by_cases hready : s.status = .ready
  · cases hi : fetchInstr s with
    | error c =>
      obtain rfl := next_inj ((step_of_error hready hi).symm.trans h)
      exact step_of_error (s := s.setReg .es v) hready ((fetchInstr_setReg_es s v).trans hi)
    | ok i =>
      obtain ⟨t', hexec, -, hexec'⟩ := exec_setReg_unused (n := .es) (by simp [unusedRegs]) i s v
      obtain rfl := next_inj (((step_of_ok hready hi).trans hexec).symm.trans h)
      exact (step_of_ok (s := s.setReg .es v) hready ((fetchInstr_setReg_es s v).trans hi)).trans hexec'
  · obtain rfl := next_inj ((step_of_not_ready hready).symm.trans h)
    exact step_of_not_ready (s := s.setReg .es v) hready

/-- Settles O36: the frame of a step, and `ES` being a register that neither decoding nor execution uses. -/
theorem segmentRegistersAreNeverWritten : Obligations.SegmentRegistersAreNeverWritten := by
  intro s t h
  obtain ⟨himg, hregs⟩ := step_frame h
  exact ⟨hregs .cs (by simp), hregs .ds (by simp), hregs .es (by simp), hregs .ss (by simp), himg, step_setReg_es h⟩

end Sys2Proof.Machine

/-! PROOFS. The invariant of the reachable states (R27, R125) and the end of every run (R140): O37 to O40. -/

namespace Sys2Proof.Machine

/-! ## The invariant -/

/-- RESET establishes the invariant for every canonical `MEM0` (R25). -/
theorem resetWith_inv {mem0 : Memory} (h : mem0.wf = true) : (State.resetWith mem0).Inv where
  memWf := h
  imgEndLe := by simp
  csZero := resetWith_reg mem0 .cs
  dsZero := resetWith_reg mem0 .ds
  esZero := resetWith_reg mem0 .es
  ssZero := resetWith_reg mem0 .ss
  flagsZero := resetWith_reg mem0 .flags
  statusLegal := by simp

/-- LOAD keeps the invariant: it writes the image and `IMG_END` alone (R58). -/
theorem load_inv {bytes : List Byte} {s t : State} (hs : s.Inv) (h : s.load bytes = .next t) : t.Inv := by
  rcases Nat.lt_or_ge Config.memSize bytes.length with hlarge | hfits
  · rw [load_error s hlarge] at h
    cases h
  · obtain rfl := next_inj ((load_ok s hfits).symm.trans h)
    exact
      { hs with
        memWf := wf_writeAll bytes hs.memWf ((Nat.zero_add _).trans_le hfits)
        imgEndLe := (toNat_imgEnd hfits).trans_le hfits }

/-- Settles O37. -/
theorem invariantHoldsAfterResetAndLoad : Obligations.InvariantHoldsAfterResetAndLoad :=
  ⟨resetWith_inv rfl, fun _ => resetWith_inv, fun _ _ _ => load_inv⟩

/-- Every step keeps the invariant: `IMG_END`, `FLAGS` and the segment registers by its frame. -/
theorem step_inv {s t : State} (hs : s.Inv) (h : step s = .next t) : t.Inv := by
  obtain ⟨himg, hregs⟩ := step_frame h
  exact
    { memWf := step_memWf h hs.memWf
      imgEndLe := by rw [himg]; exact hs.imgEndLe
      csZero := (hregs .cs (by simp)).trans hs.csZero
      dsZero := (hregs .ds (by simp)).trans hs.dsZero
      esZero := (hregs .es (by simp)).trans hs.esZero
      ssZero := (hregs .ss (by simp)).trans hs.ssZero
      flagsZero := (hregs .flags (by simp)).trans hs.flagsZero
      statusLegal := fun ht => hs.statusLegal (status_of_step_malformedOperand h ht) }

/-- Settles O38. -/
theorem everyStepKeepsTheInvariant : Obligations.EveryStepKeepsTheInvariant := fun _ _ => step_inv

/-- The invariant holds in every reachable state (R27). -/
theorem reachable_inv {mem0 : Memory} {image : List Byte} {s : State} (hmem0 : mem0.wf = true)
    (h : Reachable mem0 image s) : s.Inv := by
  induction h with
  | loaded hload => exact load_inv (resetWith_inv hmem0) hload
  | stepped _ hstep ih => exact step_inv ih hstep

/-! ## Addresses and completion where the segment registers are zero -/

/-- The segment register of a memory operand is `DS` or `SS` (R97). -/
theorem segOf_eq_ds_or_ss (m : MemOperand) : segOf m = .ds ∨ segOf m = .ss := by
  have hbase (b : BaseExpr) : segOfBase b = .ds ∨ segOfBase b = .ss := by cases b <;> decide
  cases m with
  | direct a => exact .inl rfl
  | base b => exact hbase b
  | disp8 b d => exact hbase b
  | disp16 b d => exact hbase b

section Inv

variable {s : State} (hs : s.Inv)
include hs

/-- An operand's address is its effective address (R27). -/
theorem operandAddr_of_inv (m : MemOperand) : operandAddr s.regs m = (effAddr s.regs m).toNat := by
  have hseg : s.regs.get (segOf m) = 0x0000 := by
    rcases segOf_eq_ds_or_ss m with h | h
    · rw [h]; exact hs.dsZero
    · rw [h]; exact hs.ssZero
  simp [operandAddr, physAddr, hseg]

/-- An instruction byte's address is its offset (R27). -/
theorem fetchAddr_of_inv (k : Nat) : fetchAddr s k = (s.reg .ip).toNat + k := by
  simp [fetchAddr, hs.csZero]

/-- The operand of every instruction lies in the array, a word operand at offset 0xFFFF included. -/
theorem exists_destWritten_of_inv (i : Instr) : ∃ u, DestWritten s i u := by
  have hword (m : MemOperand) : operandAddr s.regs m + 1 < Config.memSize := by
    have hoff := (effAddr s.regs m).isLt
    rw [operandAddr_of_inv hs, Config.memSize]
    omega
  have hbyte (m : MemOperand) : operandAddr s.regs m < Config.memSize := Nat.lt_of_succ_lt (hword m)
  cases i with
  | movRm8R8 dst r =>
    cases dst with
    | reg d => exact ⟨_, .rm8Reg d r⟩
    | mem m => exact ⟨_, .rm8Mem m r (hbyte m)⟩
  | movRm16R16 dst r =>
    cases dst with
    | reg d => exact ⟨_, .rm16Reg d r⟩
    | mem m => exact ⟨_, .rm16Mem m r (hword m)⟩
  | movR8Rm8 d src =>
    cases src with
    | reg r => exact ⟨_, .r8Reg d r⟩
    | mem m => exact ⟨_, .r8Mem d m (hbyte m)⟩
  | movR16Rm16 d src =>
    cases src with
    | reg r => exact ⟨_, .r16Reg d r⟩
    | mem m => exact ⟨_, .r16Mem d m (hword m)⟩
  | hlt => exact ⟨s, .hlt⟩

end Inv

/-- Settles O39: every clause follows from the invariant, which holds in every reachable state. -/
theorem reachableStatesAddressWithoutSegments : Obligations.ReachableStatesAddressWithoutSegments := by
  intro mem0 image s hmem0 hreach
  have hs : s.Inv := reachable_inv hmem0 hreach
  refine ⟨hs, operandAddr_of_inv hs, fetchAddr_of_inv hs, fun i hip => ?_⟩
  obtain ⟨u, hu⟩ := exists_destWritten_of_inv hs i
  exact ⟨_, exec_of_destWritten hip hu, statusAfter_ready_or_halted i⟩

/-! ## The end of every run -/

/-- A step from `READY` ends in a terminal state or advances `IP` (R17). -/
theorem terminal_or_ip_lt_of_step {s t : State} (hready : s.status = .ready) (h : step s = .next t) :
    t.terminal ∨ (s.reg .ip).toNat < (t.reg .ip).toNat := by
  by_cases ht : t.status = .ready
  · exact .inr ((instructionPointerAdvances s t hready h).1 (.inl ht)).1
  · exact .inl ht

theorem runSteps_of_terminal {s : State} (h : s.terminal) (n : Nat) : runSteps n s = .next s := by
  cases n with
  | zero => rfl
  | succ n =>
    unfold runSteps
    split
    · exact absurd ‹_› h
    · rfl

theorem runSteps_succ {s t : State} (hready : s.status = .ready) (h : step s = .next t) (n : Nat) :
    runSteps (n + 1) s = runSteps n t := by
  simp only [runSteps, hready, h]

theorem core_run_succ {s t : State} (h : step s = .next t) (n : Nat) :
    Host.Core.run core (n + 1) s = Host.Core.run core n t := by
  have hcore : core.step s = .next t := h
  simp only [Host.Core.run, hcore]

/-- RUN with the bound `n` is iterated STEP up to a terminal state, where `n` covers the offsets that are left: each
step that does not end the run takes `IP` to a greater 16-bit value (R28, R140). -/
theorem runSteps_ends (n : Nat) (s : State) (hbound : s.terminal ∨ 0x10000 ≤ (s.reg .ip).toNat + n) :
    ∃ (k : Nat) (t : State), k ≤ n ∧ runSteps n s = .next t ∧ Host.Core.run core k s = .next t ∧ t.terminal ∧
      ∀ (j : Nat) (u : State), j < k → Host.Core.run core j s = .next u → u.status = .ready := by
  induction n generalizing s with
  | zero =>
    have hterminal : s.terminal := hbound.resolve_right fun h => absurd (s.reg .ip).isLt (Nat.not_lt.mpr h)
    exact ⟨0, s, le_rfl, rfl, rfl, hterminal, fun j u hj => absurd hj (Nat.not_lt_zero j)⟩
  | succ n ih =>
    by_cases hready : s.status = .ready
    · obtain ⟨s', hstep⟩ := step_next s
      have hbound' : s'.terminal ∨ 0x10000 ≤ (s'.reg .ip).toNat + n := by
        refine (terminal_or_ip_lt_of_step hready hstep).imp_right fun hlt => ?_
        have := hbound.resolve_left fun h => h hready
        omega
      obtain ⟨k, t, hk, hrun, hiter, ht, hbefore⟩ := ih s' hbound'
      refine ⟨k + 1, t, by omega, (runSteps_succ hready hstep n).trans hrun, (core_run_succ hstep k).trans hiter, ht,
        fun j u hj hu => ?_⟩
      cases j with
      | zero => rw [← next_inj hu]; exact hready
      | succ j => exact hbefore j u (by omega) ((core_run_succ hstep j).symm.trans hu)
    · exact ⟨0, s, by omega, runSteps_of_terminal hready (n + 1), rfl, hready,
        fun j u hj => absurd hj (Nat.not_lt_zero j)⟩

/-- Settles O40: the bound of `run` covers all 65,536 offsets. -/
theorem everyRunEnds : Obligations.EveryRunEnds :=
  fun s => runSteps_ends runBound s (.inr (Nat.le_add_left _ _))

end Sys2Proof.Machine

/-! PROOFS. The host's commands (R138 to R142, R150, R152): O8, O42 and O43. -/

namespace Sys2Proof.Machine

/-- Settles O8: RESET looks at nothing of the session, and every register of the reset state is zero. -/
theorem resetLeavesTheRegistersZero : Obligations.ResetLeavesTheRegistersZero :=
  ⟨fun _ _ => rfl, fun mem0 => ⟨resetWith_reg mem0, resetWith_reg8 mem0, rfl, rfl, rfl⟩, fun _ => ⟨rfl, rfl⟩⟩

/-- A LOAD that is allowed and fits loads the image and ends the allowance (R58, R152). -/
theorem command_load_ok {q : Session} {bytes : List Byte} {t : State} (hallowed : q.loadAllowed = true)
    (h : q.core.load bytes = .next t) : q.command (.load bytes) = .next (Session.after t, .loaded) := by
  simp [Session.command, hallowed, h]

/-- A LOAD that is allowed and does not fit changes nothing (R58, R129). -/
theorem command_load_error {q : Session} {bytes : List Byte} (hallowed : q.loadAllowed = true)
    (h : q.core.load bytes = .fault .loadError) : q.command (.load bytes) = .next (q, .loadError) := by
  simp [Session.command, hallowed, h]

/-- STEP ends the time for LOAD and reports the `STATUS` it leaves (R139, R152). -/
theorem command_step {q : Session} {t : State} (h : step q.core = .next t) :
    q.command .step = .next (Session.after t, .stepped (stepResult t.status)) := by
  simp [Session.command, h]

/-- RUN ends the time for LOAD and reports the `STATUS` it ends in (R139, R152). -/
theorem command_run {q : Session} {t : State} {r : RunResult} (h : run q.core = .next t)
    (hr : runResult t.status = some r) : q.command .run = .next (Session.after t, .ran r) := by
  simp [Session.command, h, hr]

/-- Settles O42: each clause is what one command answers. -/
theorem commandProtocol : Obligations.CommandProtocol := by
  refine ⟨fun bytes q hallowed hlarge => command_load_error hallowed (load_error q.core hlarge),
    fun bytes q hallowed hfits => ⟨_, load_ok q.core hfits, command_load_ok hallowed (load_ok q.core hfits)⟩,
    fun bytes q hallowed => command_load_refused hallowed bytes, fun q => ?_, fun mem0 q => ⟨_, rfl, rfl⟩⟩
  obtain ⟨t, hstep⟩ := step_next q.core
  exact ⟨t, hstep, command_step hstep⟩

/-- Settles O43: RUN ends in a terminal state, and every `STATUS` of one has its result. -/
theorem runReportsItsTerminalStatus : Obligations.RunReportsItsTerminalStatus := by
  intro q
  obtain ⟨-, t, -, hrun, -, hterminal, -⟩ := everyRunEnds q.core
  have hresult : ∃ r, runResult t.status = some r := by
    cases ht : t.status with
    | ready => exact absurd ht hterminal
    | _ => exact ⟨_, rfl⟩
  obtain ⟨r, hr⟩ := hresult
  have hreports {c : Status} {r' : RunResult} (hc : runResult c = some r') (ht : t.status = c) : r = r' :=
    Option.some.inj (hr.symm.trans ((congrArg runResult ht).trans hc))
  exact ⟨t, r, hrun, command_run hrun hr, hreports rfl, hreports rfl, hreports rfl, hreports rfl, hreports rfl,
    hterminal⟩

end Sys2Proof.Machine
